-- ==== Sys2Proof/Word.lean ====
section
/-! DEFINITION. The words of the CHIP-8 core: the widths its spec names, and nothing else.
All values are unsigned (00_scope.md R6, 43_load_alu.md R132). -/

namespace Sys2Proof

/-- 8 bits: a general register, a memory byte, a timer, the immediate `kk` (R10, R20, R40, R63). -/
abbrev Byte := BitVec 8

/-- 16 bits: an instruction word, `pc`, `I`, a call-stack slot (R14, R16, R18, R60). -/
abbrev Word := BitVec 16

/-- 12 bits: the address operand `nnn` (R61, R63). -/
abbrev Addr12 := BitVec 12

/-- 4 bits: a nibble of an instruction word, a key identity (R6, R30). -/
abbrev Nibble := BitVec 4

/-- The index of a general register, 0 to 15, as the fields `x` and `y` give it; that it lies in the
register file is "structurally guaranteed" (R11), so the type carries it. -/
abbrev Reg := Fin 16

end Sys2Proof
end

