-- ==== Sys2Proof/Config.lean ====
section
/-! DEFINITION. What is fixed for the machine: the parameters of 00_scope.md R5 that the source states,
the types of the parameters the spec decides (their values stand in Machine/Params.lean), and the free
values of the level inputs (R33), which no proof can evaluate. -/

namespace Sys2Proof.Config

/-- `MEM_SIZE` (R5, R40). -/
abbrev memSize : Nat := 4096

/-- `PROG_BASE`: where the program is loaded and execution begins (R5, R46, R201). -/
abbrev progBase : Nat := 0x200

/-- `STACK_DEPTH` (R5, R18). -/
abbrev stackDepth : Nat := 16

/-- `FB_W` (R5, R24). -/
abbrev fbWidth : Nat := 64

/-- `FB_H` (R5, R24). -/
abbrev fbHeight : Nat := 32

/-- `TIMER_HZ` (R5): a property of the host's event generation, used by no rule (R187, R212). -/
abbrev timerHz : Nat := 60

/-- The values of `SHIFT_SOURCE` (R5, D5): the register that `8xy6` and `8xyE` shift. -/
inductive ShiftSource where
  | vx
  | vy
deriving DecidableEq, Repr

/-- The values of `BLOCK_XFER_I_STEP` (R5, D6): what `Fx55` and `Fx65` do to `I`. -/
inductive BlockXferStep where
  /-- `I` is left one past the last byte transferred. -/
  | advance
  /-- `I` is unchanged. -/
  | unchanged
deriving DecidableEq, Repr

/-! Free values (log 2). When the host's inbox lists no event, the model issues a `Step` by itself and the
level inputs at that Step are these, applied to a counter of State. They have no body: a claim proved
about such a Step holds for every value of the inputs. -/

/-- The levels `keys[15:0]` (R33a, U15). -/
opaque freeKeys : Nat → BitVec 16

/-- The byte on `rand_byte[7:0]` (R33b, R131, U14). -/
opaque freeRandByte : Nat → Byte

/-- `KEY_OOR` as `Ex9E` samples it: "unspecified Boolean" (R160, D11, U16). -/
opaque freeKeyOorSkp : Nat → Bool

/-- `KEY_OOR` as `ExA1` samples it: "free and not tied to that of `E19E`" (vector KT5, R161, D11). -/
opaque freeKeyOorSknp : Nat → Bool

end Sys2Proof.Config
end

