-- ==== Sys2Proof/Syntax.lean ====
section
/-! DEFINITION. The instruction set as syntax: one constructor per row of the opcode table
(30_encoding.md R64, spec/opcode_table.json), in the table's order. Each docstring gives the row's
pattern, which is the instruction's normative name (R8, R69). -/

namespace Sys2Proof

/-- The 34 instructions (R64). Operands: `x`, `y` register fields, `kk` 8-bit immediate, `nnn` 12-bit
address, `n` sprite height (R61, R62). -/
inductive Instr where
  /-- `00E0` (R150) -/
  | cls
  /-- `00EE` (R100) -/
  | ret
  /-- `1nnn` (R101) -/
  | jp (nnn : Addr12)
  /-- `2nnn` (R102) -/
  | call (nnn : Addr12)
  /-- `3xkk` (R110) -/
  | seImm (x : Reg) (kk : Byte)
  /-- `4xkk` (R111) -/
  | sneImm (x : Reg) (kk : Byte)
  /-- `5xy0` (R112) -/
  | seReg (x y : Reg)
  /-- `6xkk` (R120) -/
  | ldImm (x : Reg) (kk : Byte)
  /-- `7xkk` (R121) -/
  | addImm (x : Reg) (kk : Byte)
  /-- `8xy0` (R122) -/
  | ldReg (x y : Reg)
  /-- `8xy1` (R123) -/
  | orReg (x y : Reg)
  /-- `8xy2` (R124) -/
  | andReg (x y : Reg)
  /-- `8xy3` (R125) -/
  | xorReg (x y : Reg)
  /-- `8xy4` (R126) -/
  | addReg (x y : Reg)
  /-- `8xy5` (R127) -/
  | subReg (x y : Reg)
  /-- `8xy6` (R128); `y` is encoded, and used only under `SHIFT_SOURCE` = `Vy` -/
  | shr (x y : Reg)
  /-- `8xy7` (R129) -/
  | subnReg (x y : Reg)
  /-- `8xyE` (R130); `y` as for `8xy6` -/
  | shl (x y : Reg)
  /-- `9xy0` (R113) -/
  | sneReg (x y : Reg)
  /-- `Annn` (R140) -/
  | ldI (nnn : Addr12)
  /-- `Bnnn` (R103) -/
  | jpV0 (nnn : Addr12)
  /-- `Cxkk` (R131) -/
  | rnd (x : Reg) (kk : Byte)
  /-- `Dxyn` (R151) -/
  | drw (x y : Reg) (n : Nibble)
  /-- `Ex9E` (R160) -/
  | skp (x : Reg)
  /-- `ExA1` (R161) -/
  | sknp (x : Reg)
  /-- `Fx07` (R164) -/
  | ldVxDt (x : Reg)
  /-- `Fx0A` (R162) -/
  | ldVxK (x : Reg)
  /-- `Fx15` (R165) -/
  | ldDtVx (x : Reg)
  /-- `Fx18` (R166) -/
  | ldStVx (x : Reg)
  /-- `Fx1E` (R141) -/
  | addI (x : Reg)
  /-- `Fx29` (R142) -/
  | ldF (x : Reg)
  /-- `Fx33` (R143) -/
  | ldB (x : Reg)
  /-- `Fx55` (R144) -/
  | ldMemVx (x : Reg)
  /-- `Fx65` (R145) -/
  | ldVxMem (x : Reg)
deriving DecidableEq, Repr

end Sys2Proof
end

