-- ==== Sys2Proof/WellFormed.lean ====
section
/-! DEFINITION. What is well formed: an instruction word (the match and mask table of 30_encoding.md R64),
an instruction's operands, and a program image (20_memory.md R50). The table stands here as data, apart
from the decoder, so that the two can be proved to agree. -/

namespace Sys2Proof

/-- A row of the opcode map of R64: a word `w` selects it when `w AND mask = match`. -/
structure OpcodeRow where
  pattern : String
  mtch : Word
  mask : Word
deriving DecidableEq, Repr

/-- `w` selects the row `r` (R64). -/
def OpcodeRow.selects (r : OpcodeRow) (w : Word) : Bool := w &&& r.mask == r.mtch

/-- The row of an instruction, as R64 lists it (rows 1 to 34). -/
def Instr.row : Instr → OpcodeRow
  | .cls => ⟨"00E0", 0x00E0#16, 0xFFFF#16⟩
  | .ret => ⟨"00EE", 0x00EE#16, 0xFFFF#16⟩
  | .jp _ => ⟨"1nnn", 0x1000#16, 0xF000#16⟩
  | .call _ => ⟨"2nnn", 0x2000#16, 0xF000#16⟩
  | .seImm _ _ => ⟨"3xkk", 0x3000#16, 0xF000#16⟩
  | .sneImm _ _ => ⟨"4xkk", 0x4000#16, 0xF000#16⟩
  | .seReg _ _ => ⟨"5xy0", 0x5000#16, 0xF00F#16⟩
  | .ldImm _ _ => ⟨"6xkk", 0x6000#16, 0xF000#16⟩
  | .addImm _ _ => ⟨"7xkk", 0x7000#16, 0xF000#16⟩
  | .ldReg _ _ => ⟨"8xy0", 0x8000#16, 0xF00F#16⟩
  | .orReg _ _ => ⟨"8xy1", 0x8001#16, 0xF00F#16⟩
  | .andReg _ _ => ⟨"8xy2", 0x8002#16, 0xF00F#16⟩
  | .xorReg _ _ => ⟨"8xy3", 0x8003#16, 0xF00F#16⟩
  | .addReg _ _ => ⟨"8xy4", 0x8004#16, 0xF00F#16⟩
  | .subReg _ _ => ⟨"8xy5", 0x8005#16, 0xF00F#16⟩
  | .shr _ _ => ⟨"8xy6", 0x8006#16, 0xF00F#16⟩
  | .subnReg _ _ => ⟨"8xy7", 0x8007#16, 0xF00F#16⟩
  | .shl _ _ => ⟨"8xyE", 0x800E#16, 0xF00F#16⟩
  | .sneReg _ _ => ⟨"9xy0", 0x9000#16, 0xF00F#16⟩
  | .ldI _ => ⟨"Annn", 0xA000#16, 0xF000#16⟩
  | .jpV0 _ => ⟨"Bnnn", 0xB000#16, 0xF000#16⟩
  | .rnd _ _ => ⟨"Cxkk", 0xC000#16, 0xF000#16⟩
  | .drw _ _ _ => ⟨"Dxyn", 0xD000#16, 0xF000#16⟩
  | .skp _ => ⟨"Ex9E", 0xE09E#16, 0xF0FF#16⟩
  | .sknp _ => ⟨"ExA1", 0xE0A1#16, 0xF0FF#16⟩
  | .ldVxDt _ => ⟨"Fx07", 0xF007#16, 0xF0FF#16⟩
  | .ldVxK _ => ⟨"Fx0A", 0xF00A#16, 0xF0FF#16⟩
  | .ldDtVx _ => ⟨"Fx15", 0xF015#16, 0xF0FF#16⟩
  | .ldStVx _ => ⟨"Fx18", 0xF018#16, 0xF0FF#16⟩
  | .addI _ => ⟨"Fx1E", 0xF01E#16, 0xF0FF#16⟩
  | .ldF _ => ⟨"Fx29", 0xF029#16, 0xF0FF#16⟩
  | .ldB _ => ⟨"Fx33", 0xF033#16, 0xF0FF#16⟩
  | .ldMemVx _ => ⟨"Fx55", 0xF055#16, 0xF0FF#16⟩
  | .ldVxMem _ => ⟨"Fx65", 0xF065#16, 0xF0FF#16⟩

/-- One instruction per constructor, operands zero, in the table's order. -/
def sampleInstrs : List Instr :=
  [.cls, .ret, .jp 0, .call 0, .seImm 0 0, .sneImm 0 0, .seReg 0 0, .ldImm 0 0, .addImm 0 0] ++
  [.ldReg 0 0, .orReg 0 0, .andReg 0 0, .xorReg 0 0, .addReg 0 0, .subReg 0 0, .shr 0 0] ++
  [.subnReg 0 0, .shl 0 0, .sneReg 0 0, .ldI 0, .jpV0 0, .rnd 0 0, .drw 0 0 0, .skp 0, .sknp 0] ++
  [.ldVxDt 0, .ldVxK 0, .ldDtVx 0, .ldStVx 0, .addI 0, .ldF 0, .ldB 0, .ldMemVx 0, .ldVxMem 0]

/-- The complete opcode map of R64. -/
def opcodeTable : List OpcodeRow := sampleInstrs.map Instr.row

/-- A word is legal when it selects a row of R64; every other word is `UnimplementedOpcode` (R67). -/
def legalWord (w : Word) : Bool := opcodeTable.any (·.selects w)

/-- The operands of an instruction fit the fields of R61: registers and the height 0 to 15, `kk` below 256,
`nnn` below 4096. The types of `Instr` carry this already (R11 "structurally guaranteed, not separately
validated"), so every term passes; the words that are no instruction are refused by `legalWord`. -/
def Instr.wellFormed : Instr → Bool
  | .cls | .ret => true
  | .jp nnn | .call nnn | .ldI nnn | .jpV0 nnn => nnn.toNat < 4096
  | .seImm x kk | .sneImm x kk | .ldImm x kk | .addImm x kk | .rnd x kk => x.val < 16 && kk.toNat < 256
  | .seReg x y | .ldReg x y | .orReg x y | .andReg x y | .xorReg x y | .addReg x y | .subReg x y
  | .shr x y | .subnReg x y | .shl x y | .sneReg x y => x.val < 16 && y.val < 16
  | .drw x y n => x.val < 16 && y.val < 16 && n.toNat < 16
  | .skp x | .sknp x | .ldVxDt x | .ldVxK x | .ldDtVx x | .ldStVx x | .addI x | .ldF x | .ldB x
  | .ldMemVx x | .ldVxMem x => x.val < 16

/-- A program image fits when "bytes.len() + 0x200" does not exceed 4096 (R50). -/
def imageFits (bytes : List Byte) : Bool := bytes.length + Config.progBase ≤ Config.memSize

end Sys2Proof
end

