-- ==== Sys2Proof/Decode.lean ====
section
/-! DEFINITION. The instruction decoder (30_encoding.md R60 to R68) and the encoder. The decoder is total: it
refuses by name the words that are no instruction, and byte strings shorter than one word. -/

namespace Sys2Proof

/-- Why bytes are no instruction. -/
inductive DecodeError where
  /-- The word matches no row of R64 (R67): the verdict `Unimplemented` of R65. -/
  | unimplemented (w : Word)
  /-- Fewer than the two bytes an instruction has (R60) were given. -/
  | truncated (given : Nat)
deriving DecidableEq, Repr

/-! The fields of R61. -/

/-- `n0`, bits 15:12: the major opcode. -/
def fieldN0 (w : Word) : Nibble := w.extractLsb' 12 4
/-- `x`, bits 11:8. -/
def fieldX (w : Word) : Reg := (w.extractLsb' 8 4).toFin
/-- `y`, bits 7:4. -/
def fieldY (w : Word) : Reg := (w.extractLsb' 4 4).toFin
/-- `n`, bits 3:0. -/
def fieldN (w : Word) : Nibble := w.extractLsb' 0 4
/-- `kk`, bits 7:0. -/
def fieldKK (w : Word) : Byte := w.extractLsb' 0 8
/-- `nnn`, bits 11:0. -/
def fieldNNN (w : Word) : Addr12 := w.extractLsb' 0 12

/-- Group 8 of R65: the minor opcode is `n`. -/
def decodeGroup8 (w : Word) : Except DecodeError Instr :=
  match (fieldN w).toNat with
  | 0x0 => .ok (.ldReg (fieldX w) (fieldY w))
  | 0x1 => .ok (.orReg (fieldX w) (fieldY w))
  | 0x2 => .ok (.andReg (fieldX w) (fieldY w))
  | 0x3 => .ok (.xorReg (fieldX w) (fieldY w))
  | 0x4 => .ok (.addReg (fieldX w) (fieldY w))
  | 0x5 => .ok (.subReg (fieldX w) (fieldY w))
  | 0x6 => .ok (.shr (fieldX w) (fieldY w))
  | 0x7 => .ok (.subnReg (fieldX w) (fieldY w))
  | 0xE => .ok (.shl (fieldX w) (fieldY w))
  | _ => .error (.unimplemented w)

/-- Group F of R65: the minor opcode is `kk`. -/
def decodeGroupF (w : Word) : Except DecodeError Instr :=
  match (fieldKK w).toNat with
  | 0x07 => .ok (.ldVxDt (fieldX w))
  | 0x0A => .ok (.ldVxK (fieldX w))
  | 0x15 => .ok (.ldDtVx (fieldX w))
  | 0x18 => .ok (.ldStVx (fieldX w))
  | 0x1E => .ok (.addI (fieldX w))
  | 0x29 => .ok (.ldF (fieldX w))
  | 0x33 => .ok (.ldB (fieldX w))
  | 0x55 => .ok (.ldMemVx (fieldX w))
  | 0x65 => .ok (.ldVxMem (fieldX w))
  | _ => .error (.unimplemented w)

/-- The decoding procedure of R65: first on `n0`; then in group 0 on the whole word, in groups 5, 8 and 9 on
`n`, in groups E and F on `kk`. It depends on the 16 bits of the word only (R66). -/
def decode (w : Word) : Except DecodeError Instr :=
  match (fieldN0 w).toNat with
  | 0x0 => if w = 0x00E0#16 then .ok .cls else if w = 0x00EE#16 then .ok .ret else .error (.unimplemented w)
  | 0x1 => .ok (.jp (fieldNNN w))
  | 0x2 => .ok (.call (fieldNNN w))
  | 0x3 => .ok (.seImm (fieldX w) (fieldKK w))
  | 0x4 => .ok (.sneImm (fieldX w) (fieldKK w))
  | 0x5 => if fieldN w = 0 then .ok (.seReg (fieldX w) (fieldY w)) else .error (.unimplemented w)
  | 0x6 => .ok (.ldImm (fieldX w) (fieldKK w))
  | 0x7 => .ok (.addImm (fieldX w) (fieldKK w))
  | 0x8 => decodeGroup8 w
  | 0x9 => if fieldN w = 0 then .ok (.sneReg (fieldX w) (fieldY w)) else .error (.unimplemented w)
  | 0xA => .ok (.ldI (fieldNNN w))
  | 0xB => .ok (.jpV0 (fieldNNN w))
  | 0xC => .ok (.rnd (fieldX w) (fieldKK w))
  | 0xD => .ok (.drw (fieldX w) (fieldY w) (fieldN w))
  | 0xE =>
    if fieldKK w = 0x9E#8 then .ok (.skp (fieldX w))
    else if fieldKK w = 0xA1#8 then .ok (.sknp (fieldX w))
    else .error (.unimplemented w)
  | _ => decodeGroupF w

/-- `hi ++ lo`: an instruction word from its two bytes, the byte at the lower address first (R43, R60). -/
def wordOfBytes (hi lo : Byte) : Word := hi ++ lo

/-- The byte of `w` stored at the lower address: bits 15:8 (R43). -/
def highByte (w : Word) : Byte := w.extractLsb' 8 8

/-- The byte of `w` stored at the higher address: bits 7:0 (R43). -/
def lowByte (w : Word) : Byte := w.extractLsb' 0 8

/-- The decoder on bytes as memory holds them: the instruction and the bytes after it (R43, R60). -/
def decodeBytes : List Byte → Except DecodeError (Instr × List Byte)
  | hi :: lo :: rest =>
    match decode (wordOfBytes hi lo) with
    | .ok i => .ok (i, rest)
    | .error e => .error e
  | bytes => .error (.truncated bytes.length)

/-! The encoder, from the formats of R62. -/

/-- Formats `OP`, `XY`, `XYN`: four nibbles, the highest first. -/
def wordXYN (n0 n1 n2 n3 : Nibble) : Word := n0 ++ n1 ++ n2 ++ n3
/-- Formats `XKK` and `X`: major opcode, register, byte. -/
def wordXKK (n0 x : Nibble) (kk : Byte) : Word := n0 ++ x ++ kk
/-- Format `NNN`: major opcode and address. -/
def wordNNN (n0 : Nibble) (nnn : Addr12) : Word := n0 ++ nnn

/-- A register index as its 4-bit field. -/
def regField (r : Reg) : Nibble := BitVec.ofFin r

/-- The word of an instruction (R62, R64). -/
def encode : Instr → Word
  | .cls => 0x00E0#16
  | .ret => 0x00EE#16
  | .jp nnn => wordNNN 0x1 nnn
  | .call nnn => wordNNN 0x2 nnn
  | .seImm x kk => wordXKK 0x3 (regField x) kk
  | .sneImm x kk => wordXKK 0x4 (regField x) kk
  | .seReg x y => wordXYN 0x5 (regField x) (regField y) 0x0
  | .ldImm x kk => wordXKK 0x6 (regField x) kk
  | .addImm x kk => wordXKK 0x7 (regField x) kk
  | .ldReg x y => wordXYN 0x8 (regField x) (regField y) 0x0
  | .orReg x y => wordXYN 0x8 (regField x) (regField y) 0x1
  | .andReg x y => wordXYN 0x8 (regField x) (regField y) 0x2
  | .xorReg x y => wordXYN 0x8 (regField x) (regField y) 0x3
  | .addReg x y => wordXYN 0x8 (regField x) (regField y) 0x4
  | .subReg x y => wordXYN 0x8 (regField x) (regField y) 0x5
  | .shr x y => wordXYN 0x8 (regField x) (regField y) 0x6
  | .subnReg x y => wordXYN 0x8 (regField x) (regField y) 0x7
  | .shl x y => wordXYN 0x8 (regField x) (regField y) 0xE
  | .sneReg x y => wordXYN 0x9 (regField x) (regField y) 0x0
  | .ldI nnn => wordNNN 0xA nnn
  | .jpV0 nnn => wordNNN 0xB nnn
  | .rnd x kk => wordXKK 0xC (regField x) kk
  | .drw x y n => wordXYN 0xD (regField x) (regField y) n
  | .skp x => wordXKK 0xE (regField x) 0x9E
  | .sknp x => wordXKK 0xE (regField x) 0xA1
  | .ldVxDt x => wordXKK 0xF (regField x) 0x07
  | .ldVxK x => wordXKK 0xF (regField x) 0x0A
  | .ldDtVx x => wordXKK 0xF (regField x) 0x15
  | .ldStVx x => wordXKK 0xF (regField x) 0x18
  | .addI x => wordXKK 0xF (regField x) 0x1E
  | .ldF x => wordXKK 0xF (regField x) 0x29
  | .ldB x => wordXKK 0xF (regField x) 0x33
  | .ldMemVx x => wordXKK 0xF (regField x) 0x55
  | .ldVxMem x => wordXKK 0xF (regField x) 0x65

/-- The bytes of an instruction as memory holds them (R43). -/
def encodeBytes (i : Instr) : List Byte := [highByte (encode i), lowByte (encode i)]

/-- The word whose bits are `w`, of which `nbits` are given and the rest are 0 (the host's numbering: bit 0 is
the least significant bit of the one word an instruction has). -/
def tableWord (nbits w : Nat) : Word := BitVec.ofNat 16 (w % 2 ^ min nbits 16)

/-- What the decoder reads from the bytes of such a word. -/
def decodeTableWord (nbits w : Nat) : Option Instr :=
  match decodeBytes [highByte (tableWord nbits w), lowByte (tableWord nbits w)] with
  | .ok (i, _) => some i
  | .error _ => none

end Sys2Proof
end

