-- ==== Sys2Proof/Machine/Params.lean ====
section
/-! DEFINITION. The values of the parameters the spec decides (00_scope.md R5; "Open parameters in one list" of
92_eei_decisions.md). They stand here, apart from the operations that take them as arguments, because they
are the spec's own choices and not the source's. -/

namespace Sys2Proof.Machine.Params

/-- `FONT_BASE` (R47, D7; log 14). -/
def fontBase : Nat := 0x050

/-- Glyphs 0 to 3 of R48. -/
def glyphs0to3 : List Byte :=
  [0xF0, 0x90, 0x90, 0x90, 0xF0] ++ [0x20, 0x60, 0x20, 0x20, 0x70] ++
  [0xF0, 0x10, 0xF0, 0x80, 0xF0] ++ [0xF0, 0x10, 0xF0, 0x10, 0xF0]

/-- Glyphs 4 to 7 of R48. -/
def glyphs4to7 : List Byte :=
  [0x90, 0x90, 0xF0, 0x10, 0x10] ++ [0xF0, 0x80, 0xF0, 0x10, 0xF0] ++
  [0xF0, 0x80, 0xF0, 0x90, 0xF0] ++ [0xF0, 0x10, 0x20, 0x40, 0x40]

/-- Glyphs 8 to B of R48. -/
def glyphs8toB : List Byte :=
  [0xF0, 0x90, 0xF0, 0x90, 0xF0] ++ [0xF0, 0x90, 0xF0, 0x10, 0xF0] ++
  [0xF0, 0x90, 0xF0, 0x90, 0x90] ++ [0xE0, 0x90, 0xE0, 0x90, 0xE0]

/-- Glyphs C to F of R48. -/
def glyphsCtoF : List Byte :=
  [0xF0, 0x80, 0x80, 0x80, 0xF0] ++ [0xE0, 0x90, 0x90, 0x90, 0xE0] ++
  [0xF0, 0x80, 0xF0, 0x80, 0xF0] ++ [0xF0, 0x80, 0xF0, 0x80, 0x80]

/-- `FONT_TABLE`: the 80 bytes of R48 (D8; PRESUMED by the spec, "from general knowledge"; log 13). -/
def fontTable : List Byte := glyphs0to3 ++ glyphs4to7 ++ glyphs8toB ++ glyphsCtoF

/-- `MEM_INIT` (R49, D17; log 12). -/
def memInit : Byte := 0x00

/-- `SHIFT_SOURCE` (R128, R130, D5; log 15). -/
def shiftSource : Config.ShiftSource := .vx

/-- `BLOCK_XFER_I_STEP` (R144, R145, D6; log 16). -/
def blockXferStep : Config.BlockXferStep := .advance

/-- `EXC_CODE`: the numeric codes of the five kinds of fault, in the order R170 lists them (D15; log 8). -/
def excCode : Vector Nat 5 := #v[1, 2, 3, 4, 5]

/-- `IPS` (R212, D28): "used by no rule" (log 23). -/
def ips : Nat := 700

end Sys2Proof.Machine.Params
end

