-- ==== Sys2Proof/Machine/State.lean ====
section
/-! DEFINITION. The state of the core (10_state.md R10 to R35), its ports (R32, R33), the host's events still to
come (R30, R31), and the state right after `Reset` (R34). -/

namespace Sys2Proof.Machine

/-- The 4096 bytes of R40, as a list of cells in one canonical form (`Memory.wf` in Ops.lean); an address the
list does not name reads as its reset contents (`resetByte`; R46 to R49, log 12). -/
abbrev Memory := List Host.Cell

/-- The framebuffer of R24: 32 rows of 64 pixels, the pixel of column `px` being bit `px` of its row, so that
`fb[k]` of the spec is bit `k mod 64` of row `k div 64` (log 26). -/
abbrev Framebuffer := Vector (BitVec 64) 32

/-- The run states of R26. -/
inductive RunState where
  | running
  /-- `AwaitingKey(r)`: a key wait with target register `r` (R26, R192). -/
  | awaitingKey (r : Reg)
  | faulted
deriving DecidableEq, Repr

/-- The five kinds of fault the machine raises (R170). -/
inductive FaultKind where
  | loadError
  | stackOverflow
  | stackUnderflow
  | unimplementedOpcode
  | addressOutOfRange
deriving DecidableEq, Repr

/-- The fault record of R28. `opcode` is `none` where `opcode_valid` is 0. -/
structure FaultRecord where
  kind : FaultKind
  /-- `fault.pc`: the address from which the faulting instruction was, or was to be, fetched. -/
  pc : Word
  opcode : Option Word
deriving DecidableEq, Repr

/-- The inputs a `Step` samples (R33), and the two free answers of a key test above 15 (D11, KT5). -/
structure Ports where
  /-- `keys[15:0]`, bit k the level of key k (R33a). -/
  keys : BitVec 16
  /-- `rand_byte[7:0]` (R33b). -/
  randByte : Byte
  /-- `KEY_OOR` as `Ex9E` samples it (R160). -/
  keyOorSkp : Bool
  /-- `KEY_OOR` as `ExA1` samples it (R161). -/
  keyOorSknp : Bool
deriving DecidableEq, Repr

/-- The input events of R30. A `Step` carries the levels of the input ports at that Step (R202 "hold the
`keys` and `rand_byte` inputs valid at every `Step`"). -/
inductive HostEvent where
  | reset
  | load (bytes : List Byte)
  | step (ports : Ports)
  | timerTick
  | keyPress (k : Nibble)
deriving DecidableEq, Repr

/-- The state of the core, of its ports, and the model's own bookkeeping of the host. -/
structure State where
  /-- `V[0]` … `V[15]` (R10). -/
  v : Vector Byte 16
  /-- `pc` (R14). -/
  pc : Word
  /-- `I` (R16). -/
  i : Word
  /-- `sp`, 0 to 16 (R18). -/
  sp : Fin 17
  /-- `stack[0]` … `stack[15]` (R18). -/
  stack : Vector Word 16
  /-- `dt` (R20). -/
  dt : Byte
  /-- `st` (R22). -/
  st : Byte
  /-- `fb` (R24), which is also the output `fb_out` (R32a). -/
  fb : Framebuffer
  /-- `run_state` (R26). -/
  runState : RunState
  /-- The fault record (R28): `none` where `fault.valid` is 0 (log 7). -/
  fault : Option FaultRecord
  /-- `mem` (R40). -/
  mem : Memory
  /-- Output strobe `frame` (R32b): pulsed by the event just handled (log 10). -/
  frame : Bool
  /-- Output strobe `key_wait_begin` (R32c): pulsed by the event just handled (log 10). -/
  keyWaitBegin : Bool
  /-- The level inputs at the Step being executed (R33). -/
  ports : Ports
  /-- The model's own: host events still to come, oldest first (R30, R31, log 1). -/
  inbox : List HostEvent
  /-- The model's own: the counter the free inputs of Config are applied to (log 2). -/
  draws : Nat
  /-- The model's own: no event since `Reset`, so that `Load` is defined (R50, log 5). -/
  fresh : Bool
deriving DecidableEq, Repr

/-- Why the model stops with a fault: never. Each of the five faults the spec gives the machine has an entry the
spec describes (R176) and is taken as a NEXT state by `enterFault`; the spec names no other (R170 "five kinds
of synchronous fault and no others"), so this type has no constructor and nobody raises it (log 8). -/
inductive Fault where
deriving DecidableEq, Repr

/-- Why the model has no next state. -/
inductive Refusal where
  /-- Raised by `exec` for an instruction that has no meaning yet. Safe: nothing can be proved of what follows.
  No arm raises it: all 34 instructions are modelled. -/
  | notModelled (mnemonic : String)
  /-- Raised by `loadEvent` for a `Load` that is not the first event after `Reset`: it "has no meaning in this
  spec and a model refuses it" (R50, D24, U19). Safe: nothing can be proved of what follows. -/
  | loadNotAfterReset
deriving DecidableEq, Repr

/-- The ports before any Step has set them (log 3: DESIGN CHOICE; no Step reads these values). -/
def Ports.idle : Ports := { keys := 0, randByte := 0, keyOorSkp := false, keyOorSknp := false }

/-- The state right after `Reset` (R34, R200): registers and timers zero, `pc` at 0x200, the call stack empty,
the framebuffer clear, `Running`, no fault, memory at its reset contents. -/
def State.reset : State where
  v := Vector.replicate 16 0
  pc := 0x0200
  i := 0
  sp := 0
  stack := Vector.replicate 16 0
  dt := 0
  st := 0
  fb := Vector.replicate 32 0
  runState := .running
  fault := none
  mem := []
  frame := false
  keyWaitBegin := false
  ports := Ports.idle
  inbox := []
  draws := 0
  fresh := true

end Sys2Proof.Machine
end

