-- ==== Sys2Proof/Machine/Ops.lean ====
section
/-! DEFINITION. The named operations over memory, registers, the call stack and `pc`, taking a fault, and
leaving one. Every meaning is written over these. -/

namespace Sys2Proof.Machine

/-! ## Memory (20_memory.md) -/

/-- The contents of the byte at `a` after `Reset`: the font table at `FONT_BASE` (R47, R48), `MEM_INIT`
elsewhere (R49). At the defaults of the three parameters (R5) it is what an address the memory list does not
name reads as (log 12). -/
def resetByte (a : Nat) (fontBase : Nat := Params.fontBase) (fontTable : List Byte := Params.fontTable)
    (memInit : Byte := Params.memInit) : Byte :=
  if a < fontBase then memInit else fontTable.getD (a - fontBase) memInit

/-- The byte the list gives an address, if it names it. -/
def Memory.lookup : Memory → Nat → Option Byte
  | [], _ => none
  | c :: rest, a => if c.1 = a then some c.2 else Memory.lookup rest a

/-- `mem[a]` (R40). -/
def Memory.read (m : Memory) (a : Nat) : Byte := (m.lookup a).getD (resetByte a)

/-- A cell in front of a list, left out when it holds what the address reads as unlisted. -/
def Memory.cons (a : Nat) (b : Byte) (m : Memory) : Memory := if b = resetByte a then m else (a, b) :: m

/-- `mem[a] <- b` (R42), keeping the list in its canonical form. -/
def Memory.write : Memory → Nat → Byte → Memory
  | [], a, b => Memory.cons a b []
  | c :: rest, a, b =>
    if a < c.1 then Memory.cons a b (c :: rest)
    else if a = c.1 then Memory.cons a b rest
    else c :: Memory.write rest a b

/-- Memory right after `Reset` under any values of `FONT_BASE`, `FONT_TABLE` and `MEM_INIT` (R5, R47 to R49): the
cells in which it differs from the default contents, in canonical form. At the defaults it is the empty list. -/
def resetMemory (fontBase : Nat := Params.fontBase) (fontTable : List Byte := Params.fontTable)
    (memInit : Byte := Params.memInit) : Memory :=
  ((List.range Config.memSize).map fun a => (a, resetByte a fontBase fontTable memInit)).filter
    fun c => c.2 ≠ resetByte c.1

/-- Bytes written one after the other from `a` upwards. -/
def Memory.writeList : Memory → Nat → List Byte → Memory
  | m, _, [] => m
  | m, a, b :: bs => Memory.writeList (m.write a b) (a + 1) bs

/-- The `n` bytes from `a` upwards. -/
def Memory.readList (m : Memory) (a n : Nat) : List Byte := (List.range n).map fun k => m.read (a + k)

/-- The canonical form: addresses strictly rising and inside R40's 4096, no cell equal to what its address
reads as unlisted. Equal memories are then equal lists. -/
def Memory.wf : Memory → Bool
  | [] => true
  | c :: rest =>
    decide (c.1 < Config.memSize) && decide (c.2 ≠ resetByte c.1) && rest.all (fun d => decide (c.1 < d.1)) &&
      Memory.wf rest

/-- All `n` addresses from `a` upwards lie in memory; the sum is not reduced modulo anything (R41, R58). -/
def spanInMemory (a n : Nat) : Bool := n = 0 || a + n - 1 < Config.memSize

/-- `MemRead(addr, 2)`: the big-endian word at `addr` (R41), the form instruction fetch uses. -/
def State.memRead2 (s : State) (addr : Nat) : Except FaultKind Word :=
  if addr + 1 ≥ Config.memSize then .error .addressOutOfRange
  else .ok (wordOfBytes (s.mem.read addr) (s.mem.read (addr + 1)))

/-- The reads of an instruction that loads `n` bytes: all addresses are checked first (R41, R58). -/
def State.loadBytes (s : State) (a n : Nat) : Except FaultKind (List Byte) :=
  if spanInMemory a n then .ok (s.mem.readList a n) else .error .addressOutOfRange

/-- The writes of an instruction that stores bytes: all addresses are checked before the first byte is written
(R42, R58 "no partial block store"). -/
def State.storeBytes (s : State) (a : Nat) (bs : List Byte) : Except FaultKind State :=
  if spanInMemory a bs.length then .ok { s with mem := s.mem.writeList a bs } else .error .addressOutOfRange

/-! ## Registers (10_state.md) -/

/-- `V[x]` (R11). -/
def State.getV (s : State) (x : Reg) : Byte := s.v[x.val]

/-- `V[x] <- b` (R11). No register is hard-wired (R10). -/
def State.setV (s : State) (x : Reg) (b : Byte) : State := { s with v := s.v.set x.val b }

/-- `V[0]` … `V[x]` take the bytes of a list in order (R145); the other registers are unchanged. -/
def State.setVUpTo (s : State) (x : Reg) (bs : List Byte) : State :=
  { s with v := Vector.ofFn fun k : Fin 16 => if k ≤ x then bs.getD k.val 0 else s.v[k.val] }

/-- The fetch advance: `pc <- pc + 2` (R82). -/
def State.advancePc (s : State) : State := { s with pc := s.pc + 2 }

/-- `if cond then pc <- pc + 2`: a skip in the execute stage (R114). -/
def State.skipIf (s : State) (cond : Bool) : State := { s with pc := if cond then s.pc + 2 else s.pc }

/-- `pc <- target` (R7). -/
def State.jumpTo (s : State) (target : Word) : State := { s with pc := target }

/-! ## The call stack (R19) -/

/-- `push(a)`: "fails with stack-overflow if sp==16". -/
def State.push (s : State) (a : Word) : Except FaultKind State :=
  if h : s.sp.val < 16 then
    .ok { s with stack := s.stack.set s.sp.val a, sp := ⟨s.sp.val + 1, by omega⟩ }
  else .error .stackOverflow

/-- `pop()`: "fails with stack-underflow if sp==0". The slot keeps its value (R18). -/
def State.pop (s : State) : Except FaultKind (Word × State) :=
  if s.sp.val = 0 then .error .stackUnderflow
  else .ok (s.stack[s.sp.val - 1], { s with sp := ⟨s.sp.val - 1, by omega⟩ })

/-! ## Faults (60_exceptions.md) -/

/-- The place of a kind in the list of R170. -/
def FaultKind.index : FaultKind → Fin 5
  | .loadError => 0
  | .stackOverflow => 1
  | .stackUnderflow => 2
  | .unimplementedOpcode => 3
  | .addressOutOfRange => 4

/-- The numeric code of a kind, under a value of `EXC_CODE` (R5, R170, D15). -/
def FaultKind.code (kind : FaultKind) (excCode : Vector Nat 5 := Params.excCode) : Nat := excCode[kind.index.val]

/-- The code the host reads in the fault record, where one is recorded (R28, R32d). -/
def State.faultCode (s : State) (excCode : Vector Nat 5 := Params.excCode) : Option Nat :=
  s.fault.map fun f => f.kind.code excCode

/-- Taking a fault (R176): the record is written and `run_state` becomes `Faulted`. Control goes nowhere; every
other piece of state is what the caller leaves (R87: as before the Step, except the fetch advance). -/
def State.enterFault (s : State) (kind : FaultKind) (pc : Word) (opcode : Option Word) : State :=
  { s with runState := .faulted, fault := some { kind := kind, pc := pc, opcode := opcode } }

/-- A fault of the execute stage (R87, R170): the instruction `i` was fetched from `pc - 2`, since `pc` is
advanced before execute (R14, R82), and its word is its encoding (log 9). -/
def State.raise (s : State) (kind : FaultKind) (i : Instr) : State :=
  s.enterFault kind (s.pc - 2) (some (encode i))

/-- The end of an instruction that may fault: its new state, or the fault taken from the state before it
(R87, R176 "every effect of the faulting instruction … is suppressed"). -/
def State.orRaise (s : State) (i : Instr) : Except FaultKind State → Host.Outcome State Fault Refusal
  | .ok t => .next t
  | .error kind => .next (s.raise kind i)

/-- The `Reset` event, the only exit from `Faulted` (R179, R200): "puts every piece of state at the value listed
in" R34. What the host will do next is not the core's state and is kept (log 6). Under other values of the
memory parameters than their defaults the memory is a `resetMemory` of those values. -/
def State.resetEvent (s : State) (mem : Memory := State.reset.mem) : State :=
  { State.reset with mem := mem, inbox := s.inbox, draws := s.draws }

/-! ## Events and ports (R30 to R33) -/

/-- The start of any event but `Reset`: the strobes are one-event pulses (R7), and `Load` is no longer the first
event after `Reset` (R50). -/
def State.beginEvent (s : State) : State := { s with frame := false, keyWaitBegin := false, fresh := false }

/-- `strobe frame` (R32b). -/
def State.strobeFrame (s : State) : State := { s with frame := true }

/-- `strobe key_wait_begin` (R32c). -/
def State.strobeKeyWaitBegin (s : State) : State := { s with keyWaitBegin := true }

/-- Store a word where the next Step fetches its instruction, in a state in which the next event is a Step that
fetches (`Running`, no fault, nothing in the inbox, `pc` at a fetchable address); it stands for the host's
`Load` (R202, log 18). -/
def State.placeWord (s : State) (w : Word) : State :=
  let a : Word := if s.pc.toNat + 1 < Config.memSize then s.pc else BitVec.ofNat 16 Config.progBase
  { s with
    pc := a
    runState := .running
    fault := none
    inbox := []
    fresh := false
    mem := s.mem.writeList a.toNat [highByte w, lowByte w] }

end Sys2Proof.Machine
end

