-- ==== Sys2Proof/Machine/Flags.lean ====
section
/-! DEFINITION. Every flag computation of the spec (10_state.md R12, 43_load_alu.md R136): each is a value of the
operands before the instruction, and is written to `VF` as 0x00 or 0x01 after the result (R86). -/

namespace Sys2Proof.Machine

/-- "a full 8-bit write" of 0x00 or 0x01 (R12). -/
def flagByte (f : Bool) : Byte := if f then 1 else 0

/-- Carry of `8xy4`: "VF=1 iff the unsigned sum exceeds 255" (R126). -/
def carryOut (a b : Byte) : Bool := a.toNat + b.toNat > 255

/-- The flag of `8xy5` and, with the operands exchanged, of `8xy7`: strictly greater (R127, R129, C5;
log 29). -/
def strictlyGreater (a b : Byte) : Bool := a.toNat > b.toNat

/-- The flag of `8xy6`: "the pre-shift low bit" (R128). -/
def shiftedOutLow (a : Byte) : Bool := a.getLsbD 0

/-- The flag of `8xyE`: "the pre-shift … high bit" (R130). -/
def shiftedOutHigh (a : Byte) : Bool := a.getLsbD 7

/-- `V[x] <- result ; V[15] <- flag`, in this order, so that for `x` = 15 the flag is what stays (R86). -/
def State.setResultThenFlag (s : State) (x : Reg) (result : Byte) (flag : Bool) : State :=
  (s.setV x result).setV 15 (flagByte flag)

end Sys2Proof.Machine
end

