-- ==== Sys2Proof/Machine/Operands.lean ====
section
/-! DEFINITION. The operand forms (30_encoding.md R63, 44_index_memory.md R146): immediates, effective
addresses, the operand of a shift, key levels, digits and register blocks. All of them are read from the
state before an instruction writes anything (R85). -/

namespace Sys2Proof.Machine

/-- `zext_16(nnn)`: an address operand written to `pc` or `I` (R63). -/
def zext16 (nnn : Addr12) : Word := nnn.setWidth 16

/-- `zext_8(k)`: a key identity written to a register (R163). -/
def zext8 (k : Nibble) : Byte := k.setWidth 8

/-- The effective address `I + k`, formed without reduction (R58, R146). -/
def State.effAddr (s : State) (k : Nat) : Nat := s.i.toNat + k

/-- `zext_16(nnn) + zext_16(V[0])` (R103). -/
def State.jumpV0Target (s : State) (nnn : Addr12) : Word := BitVec.ofNat 16 (nnn.toNat + (s.getV 0).toNat)

/-- `FONT_BASE + 5 * zext_16(V[x])`, the full 8-bit value, under a value of `FONT_BASE` (R5, R142, D7, D9). -/
def glyphAddr (vx : Byte) (fontBase : Nat := Params.fontBase) : Word := BitVec.ofNat 16 (fontBase + 5 * vx.toNat)

/-- The value a shift instruction shifts, under a value of `SHIFT_SOURCE` (R128, R130, D5). -/
def State.shiftOperand (s : State) (src : Config.ShiftSource) (x y : Reg) : Byte :=
  match src with
  | .vx => s.getV x
  | .vy => s.getV y

/-- `down` of R160 and R161: `keys[v]` for a key identity, the free Boolean for a value above 15 (D11). -/
def State.keyDown (s : State) (v : Byte) (oor : Bool) : Bool :=
  if v.toNat ≤ 15 then s.ports.keys.getLsbD v.toNat else oor

/-- The decimal digits of a byte, most significant first, without leading zeros (R143, C6, D10). -/
def decimalDigits (v : Byte) : List Byte :=
  let n := v.toNat
  if n ≥ 100 then [BitVec.ofNat 8 (n / 100), BitVec.ofNat 8 ((n / 10) % 10), BitVec.ofNat 8 (n % 10)]
  else if n ≥ 10 then [BitVec.ofNat 8 (n / 10), BitVec.ofNat 8 (n % 10)]
  else [v]

/-- `V0` … `Vx` inclusive (R144): "inclusive range is x+1 registers". -/
def State.blockRegs (s : State) (x : Reg) : List Byte := s.v.toList.take (x.val + 1)

/-- `I` after a block transfer, under a value of `BLOCK_XFER_I_STEP` (R144, R145, D6). -/
def blockEnd (step : Config.BlockXferStep) (i : Word) (x : Reg) : Word :=
  match step with
  | .advance => BitVec.ofNat 16 (i.toNat + x.val + 1)
  | .unchanged => i

end Sys2Proof.Machine
end

