-- ==== Sys2Proof/Machine/Alu.lean ====
section
/-! DEFINITION. Register load, ALU and random: `6xkk`, `7xkk`, `8xy0` to `8xy7`, `8xyE`, `Cxkk` (43_load_alu.md). Sums and
differences are formed exactly and narrowed modulo 256 at the end (R132); operands are read before anything
is written (R85), the result is written before the flag (R86). -/

namespace Sys2Proof.Machine

/-- `6xkk`, "Vx := kk" (R120). -/
def execLdImm (x : Reg) (kk : Byte) (s : State) : Host.Outcome State Fault Refusal := .next (s.setV x kk)

/-- `7xkk`, "Vx := Vx + kk, wrapping", "no flag change" (R121). -/
def execAddImm (x : Reg) (kk : Byte) (s : State) : Host.Outcome State Fault Refusal :=
  .next (s.setV x (BitVec.ofNat 8 ((s.getV x).toNat + kk.toNat)))

/-- `8xy0`, "assign" (R122). -/
def execLdReg (x y : Reg) (s : State) : Host.Outcome State Fault Refusal := .next (s.setV x (s.getV y))

/-- `8xy1`, "OR" (R123); `VF` is unchanged. -/
def execOrReg (x y : Reg) (s : State) : Host.Outcome State Fault Refusal :=
  .next (s.setV x (s.getV x ||| s.getV y))

/-- `8xy2`, "AND" (R124); `VF` is unchanged. -/
def execAndReg (x y : Reg) (s : State) : Host.Outcome State Fault Refusal :=
  .next (s.setV x (s.getV x &&& s.getV y))

/-- `8xy3`, "XOR" (R125); `VF` is unchanged. -/
def execXorReg (x y : Reg) (s : State) : Host.Outcome State Fault Refusal :=
  .next (s.setV x (s.getV x ^^^ s.getV y))

/-- `8xy4`, "add-with-carry" (R126). -/
def execAddReg (x y : Reg) (s : State) : Host.Outcome State Fault Refusal :=
  let a := s.getV x
  let b := s.getV y
  .next (s.setResultThenFlag x (BitVec.ofNat 8 (a.toNat + b.toNat)) (carryOut a b))

/-- `8xy5`, "sub-with-borrow (VF=1 if Vx>Vy before sub, i.e. no borrow)" (R127). -/
def execSubReg (x y : Reg) (s : State) : Host.Outcome State Fault Refusal :=
  let a := s.getV x
  let b := s.getV y
  .next (s.setResultThenFlag x (BitVec.ofNat 8 (a.toNat + 256 - b.toNat)) (strictlyGreater a b))

/-- `8xy6` under a value of `SHIFT_SOURCE` (R128). -/
def shiftRightFrom (src : Config.ShiftSource) (x y : Reg) (s : State) : State :=
  let a := s.shiftOperand src x y
  s.setResultThenFlag x (BitVec.ofNat 8 (a.toNat / 2)) (shiftedOutLow a)

/-- `8xy6`, "shift-right (VF=shifted-out low bit)" (R128). -/
def execShr (x y : Reg) (s : State) : Host.Outcome State Fault Refusal :=
  .next (shiftRightFrom Params.shiftSource x y s)

/-- `8xy7`, "reverse-sub (VF=1 if Vy>Vx)" (R129). -/
def execSubnReg (x y : Reg) (s : State) : Host.Outcome State Fault Refusal :=
  let a := s.getV x
  let b := s.getV y
  .next (s.setResultThenFlag x (BitVec.ofNat 8 (b.toNat + 256 - a.toNat)) (strictlyGreater b a))

/-- `8xyE` under a value of `SHIFT_SOURCE` (R130). -/
def shiftLeftFrom (src : Config.ShiftSource) (x y : Reg) (s : State) : State :=
  let a := s.shiftOperand src x y
  s.setResultThenFlag x (BitVec.ofNat 8 (2 * a.toNat)) (shiftedOutHigh a)

/-- `8xyE`, "shift-left (VF=shifted-out high bit)" (R130). -/
def execShl (x y : Reg) (s : State) : Host.Outcome State Fault Refusal :=
  .next (shiftLeftFrom Params.shiftSource x y s)

/-- `Cxkk`, "Vx := random_byte & kk" (R131): the byte on the input port at this Step. -/
def execRnd (x : Reg) (kk : Byte) (s : State) : Host.Outcome State Fault Refusal :=
  .next (s.setV x (s.ports.randByte &&& kk))

end Sys2Proof.Machine
end

