-- ==== Sys2Proof/Machine/Control.lean ====
section
/-! DEFINITION. Control transfer: `00EE`, `1nnn`, `2nnn`, `Bnnn` (41_control_flow.md). In the execute stage `pc`
already holds the address of the instruction plus 2 (R84). -/

namespace Sys2Proof.Machine

/-- `00EE`, "return: pop stack into pc" (R100). The popped value is not checked. -/
def execRet (s : State) : Host.Outcome State Fault Refusal :=
  s.orRaise .ret (s.pop.map fun r => r.2.jumpTo r.1)

/-- `1nnn`, "jump to nnn" (R101). -/
def execJp (nnn : Addr12) (s : State) : Host.Outcome State Fault Refusal := .next (s.jumpTo (zext16 nnn))

/-- `2nnn`, "call: push current pc, jump to nnn" (R102). -/
def execCall (nnn : Addr12) (s : State) : Host.Outcome State Fault Refusal :=
  s.orRaise (.call nnn) ((s.push s.pc).map fun t => t.jumpTo (zext16 nnn))

/-- `Bnnn`, "pc := nnn + V0" (R103); the sum is not reduced to 12 bits (D30). -/
def execJpV0 (nnn : Addr12) (s : State) : Host.Outcome State Fault Refusal :=
  .next (s.jumpTo (s.jumpV0Target nnn))

end Sys2Proof.Machine
end

