-- ==== Sys2Proof/Machine/Display.lean ====
section
/-! DEFINITION. Display: `00E0`, `Dxyn` (45_display.md), and the pixels of the framebuffer (R24, R152). -/

namespace Sys2Proof.Machine

/-- Pixel (px, py), that is `fb[px + 64*py]` (R24), for px below 64 and py below 32. -/
def Framebuffer.pixel (fb : Framebuffer) (px : Fin 64) (py : Fin 32) : Bool := fb[py.val].getLsbD px.val

/-- `fb[k] <- fb[k] XOR 1` for the pixel (px, py) (R151). -/
def Framebuffer.toggle (fb : Framebuffer) (px : Fin 64) (py : Fin 32) : Framebuffer :=
  fb.set py.val (fb[py.val] ^^^ (1#64 <<< px.val))

/-- The set pixels of one sprite row, by column: sprite column `c` is bit `7 - c` (R152, D25; log 19). -/
def litColumns (row : Byte) : List Nat := (List.range 8).filter fun c => row.getLsbD (7 - c)

/-- The screen pixels a sprite's set bits fall on, in the order of the loops of R151, from the coordinates
(vx, vy): sprite pixel (c, r) lands at ((vx + c) mod 64, (vy + r) mod 32), nothing is clipped (R152). -/
def litPixels (vx vy : Nat) : List Byte → List (Fin 64 × Fin 32)
  | [] => []
  | row :: rows =>
    (litColumns row).map (fun c => (Fin.ofNat 64 (vx + c), Fin.ofNat 32 vy)) ++ litPixels vx (vy + 1) rows

/-- One turn of the inner loop of R151: a pixel that "was already set" is a collision; the pixel is toggled. -/
def drawPixel (acc : Framebuffer × Bool) (p : Fin 64 × Fin 32) : Framebuffer × Bool :=
  (acc.1.toggle p.1 p.2, acc.2 || acc.1.pixel p.1 p.2)

/-- The loops of R151 over a sprite's rows: the framebuffer after, and whether any pixel collided. -/
def drawSprite (fb : Framebuffer) (vx vy : Nat) (rows : List Byte) : Framebuffer × Bool :=
  (litPixels vx vy rows).foldl drawPixel (fb, false)

/-- `00E0`, "clear framebuffer" (R150); the strobe is not pulsed (D21). -/
def execCls (s : State) : Host.Outcome State Fault Refusal := .next { s with fb := Vector.replicate 32 0 }

/-- `Dxyn`, "draw n-byte sprite at (Vx,Vy) from memory[I..I+n]" (R151): the coordinates are read before `VF` is
written (R85, D12); with `n` = 0 nothing is read and nothing drawn (D31). -/
def execDrw (x y : Reg) (n : Nibble) (s : State) : Host.Outcome State Fault Refusal :=
  s.orRaise (.drw x y n) <|
    (s.loadBytes (s.effAddr 0) n.toNat).map fun rows =>
      let d := drawSprite s.fb (s.getV x).toNat (s.getV y).toNat rows
      (({ s with fb := d.1 }).setV 15 (flagByte d.2)).strobeFrame

end Sys2Proof.Machine
end

