-- ==== Sys2Proof/Machine/Index.lean ====
section
/-! DEFINITION. Index register and memory: `Annn`, `Fx1E`, `Fx29`, `Fx33`, `Fx55`, `Fx65` (44_index_memory.md). All range
checks precede all writes (R58). -/

namespace Sys2Proof.Machine

/-- `Annn`, "I := nnn" (R140). -/
def execLdI (nnn : Addr12) (s : State) : Host.Outcome State Fault Refusal := .next { s with i := zext16 nnn }

/-- `Fx1E`, "I += Vx, wrapping 16-bit" (R141); no flag. -/
def execAddI (x : Reg) (s : State) : Host.Outcome State Fault Refusal :=
  .next { s with i := BitVec.ofNat 16 (s.i.toNat + (s.getV x).toNat) }

/-- `Fx29` under a value of `FONT_BASE` (R142). -/
def State.pointAtGlyph (s : State) (x : Reg) (fontBase : Nat := Params.fontBase) : State :=
  { s with i := glyphAddr (s.getV x) fontBase }

/-- `Fx29`, "I := font-base + Vx*5" (R142). -/
def execLdF (x : Reg) (s : State) : Host.Outcome State Fault Refusal := .next (s.pointAtGlyph x)

/-- `Fx33`, "store Vx's decimal digits (most-significant first)" (R143); only as many bytes as digits. -/
def execLdB (x : Reg) (s : State) : Host.Outcome State Fault Refusal :=
  s.orRaise (.ldB x) (s.storeBytes (s.effAddr 0) (decimalDigits (s.getV x)))

/-- `Fx55` under a value of `BLOCK_XFER_I_STEP` (R144). -/
def State.storeBlock (s : State) (step : Config.BlockXferStep) (x : Reg) : Except FaultKind State :=
  (s.storeBytes (s.effAddr 0) (s.blockRegs x)).map fun t => { t with i := blockEnd step s.i x }

/-- `Fx55`, registers `V0` to `Vx` to memory (R144). -/
def execLdMemVx (x : Reg) (s : State) : Host.Outcome State Fault Refusal :=
  s.orRaise (.ldMemVx x) (s.storeBlock Params.blockXferStep x)

/-- `Fx65` under a value of `BLOCK_XFER_I_STEP` (R145). -/
def State.loadBlock (s : State) (step : Config.BlockXferStep) (x : Reg) : Except FaultKind State :=
  (s.loadBytes (s.effAddr 0) (x.val + 1)).map fun bs => { s.setVUpTo x bs with i := blockEnd step s.i x }

/-- `Fx65`, memory to registers `V0` to `Vx` (R145). -/
def execLdVxMem (x : Reg) (s : State) : Host.Outcome State Fault Refusal :=
  s.orRaise (.ldVxMem x) (s.loadBlock Params.blockXferStep x)

end Sys2Proof.Machine
end

