-- ==== Sys2Proof/Machine/Keypad.lean ====
section
/-! DEFINITION. Keypad and timers: `Ex9E`, `ExA1`, `Fx0A`, `Fx07`, `Fx15`, `Fx18` (46_keypad_timers.md). -/

namespace Sys2Proof.Machine

/-- `Ex9E`, "skip if key Vx pressed" (R160). -/
def execSkp (x : Reg) (s : State) : Host.Outcome State Fault Refusal :=
  .next (s.skipIf (s.keyDown (s.getV x) s.ports.keyOorSkp))

/-- `ExA1`, skip if key Vx "not pressed" (R161). -/
def execSknp (x : Reg) (s : State) : Host.Outcome State Fault Refusal :=
  .next (s.skipIf (!s.keyDown (s.getV x) s.ports.keyOorSknp))

/-- `Fx07`, "Vx:=dt" (R164). -/
def execLdVxDt (x : Reg) (s : State) : Host.Outcome State Fault Refusal := .next (s.setV x s.dt)

/-- `Fx0A`, "transitions to AwaitingKey" (R162); the register is written later, by the `KeyPress` event. -/
def execLdVxK (x : Reg) (s : State) : Host.Outcome State Fault Refusal :=
  .next ({ s with runState := .awaitingKey x }).strobeKeyWaitBegin

/-- `Fx15`, "dt:=Vx" (R165). -/
def execLdDtVx (x : Reg) (s : State) : Host.Outcome State Fault Refusal := .next { s with dt := s.getV x }

/-- `Fx18`, "st:=Vx" (R166). -/
def execLdStVx (x : Reg) (s : State) : Host.Outcome State Fault Refusal := .next { s with st := s.getV x }

end Sys2Proof.Machine
end

