-- ==== Sys2Proof/Machine/Events.lean ====
section
/-! DEFINITION. The events of R30 other than `Step`: `TimerTick`, `KeyPress`, `Load` (`Reset` is `State.resetEvent` in
Ops.lean), and which event comes next (R31). -/

namespace Sys2Proof.Machine

/-- A timer's decrement: "decrement only when strictly greater than zero" (R186). -/
def tickDown (t : Byte) : Byte := if t.toNat > 0 then t - 1 else t

/-- `TimerTick`, accepted in every run state (R186, D23). -/
def State.timerTick (s : State) : State := { s with dt := tickDown s.dt, st := tickDown s.st }

/-- `KeyPress(k)`: ends a key wait, otherwise ignored (R163, D22). -/
def State.keyPress (s : State) (k : Nibble) : State :=
  match s.runState with
  | .awaitingKey r => { s.setV r (zext8 k) with runState := .running }
  | .running => s
  | .faulted => s

/-- `Load(bytes)` right after `Reset`: the copy of R50, or the fault `LoadError` with `fault.pc` = 0x0200 (R28,
R171), memory then unmodified. -/
def State.loadImage (s : State) (bytes : List Byte) : State :=
  if imageFits bytes then { s with mem := s.mem.writeList Config.progBase bytes }
  else s.enterFault .loadError (BitVec.ofNat 16 Config.progBase) none

/-- `Load(bytes)`: "defined only as the first event after a `Reset`"; at any other time the model refuses it
(R50, D24, log 5). -/
def loadEvent (bytes : List Byte) (s : State) : Host.Outcome State Fault Refusal :=
  if s.fresh then .next (s.beginEvent.loadImage bytes) else .refused .loadNotAfterReset

/-- The level inputs of a Step the model issues by itself: free values (R33, D27, log 2). -/
def freePorts (draw : Nat) : Ports where
  keys := Config.freeKeys draw
  randByte := Config.freeRandByte draw
  keyOorSkp := Config.freeKeyOorSkp draw
  keyOorSknp := Config.freeKeyOorSknp draw

/-- The next event and the state without it: the oldest of the inbox, or, when the host has listed none, a
`Step` whose inputs are free (R30, R31, log 1). -/
def State.takeEvent (s : State) : HostEvent × State :=
  match s.inbox with
  | [] => (.step (freePorts s.draws), { s with draws := s.draws + 1 })
  | e :: rest => (e, { s with inbox := rest })

end Sys2Proof.Machine
end

