-- ==== Sys2Proof/Machine/Cycle.lean ====
section
/-! DEFINITION. The `Step` event: fetch, advance, decode, execute (40_fetch_decode_execute.md R80 to R89), and the
handling of each event (R30). -/

namespace Sys2Proof.Machine

/-- Decode and execute the word `w` fetched from `pc0`, `pc` being advanced already (R80, R82, R83). -/
def State.dispatchWord (s : State) (pc0 w : Word) : Host.Outcome State Fault Refusal :=
  match decode w with
  | .ok i => exec i s
  | .error _ => .next (s.enterFault .unimplementedOpcode pc0 (some w))

/-- One instruction in `Running` (R80). A fetch that faults leaves `pc` alone and records no opcode (R81). -/
def State.cycle (s : State) : Host.Outcome State Fault Refusal :=
  match s.memRead2 s.pc.toNat with
  | .error kind => .next (s.enterFault kind s.pc none)
  | .ok w => s.advancePc.dispatchWord s.pc w

/-- The `Step` event with the inputs `p` (R80): in `AwaitingKey` and `Faulted` it does nothing and nothing is
pulsed (R88, D32). -/
def stepEvent (p : Ports) (s : State) : Host.Outcome State Fault Refusal :=
  match s.runState with
  | .running => ({ s.beginEvent with ports := p }).cycle
  | .awaitingKey _ => .next s.beginEvent
  | .faulted => .next s.beginEvent

/-- An event, handled to completion (R30, R31). -/
def handleEvent (e : HostEvent) (s : State) : Host.Outcome State Fault Refusal :=
  match e with
  | .reset => .next s.resetEvent
  | .load bytes => loadEvent bytes s
  | .step p => stepEvent p s
  | .timerTick => .next s.beginEvent.timerTick
  | .keyPress k => .next (s.beginEvent.keyPress k)

end Sys2Proof.Machine
end

