-- ==== Sys2Proof/Machine/Step.lean ====
section
/-! DEFINITION. One step of the machine: the next event of the host, handled to completion (R30, R31). -/

namespace Sys2Proof.Machine

/-- The next event of the inbox, or a `Step` with free inputs when the inbox is empty (log 1). -/
def step (s : State) : Host.Outcome State Fault Refusal := handleEvent s.takeEvent.1 s.takeEvent.2

/-- `s` with the instruction whose bits are `w` stored where the next step fetches (log 18). -/
def State.withFetchWord (s : State) (nbits w : Nat) : State := s.placeWord (tableWord nbits w)

end Sys2Proof.Machine
end

