-- ==== Sys2Proof/Safety.lean ====
section
/-! DEFINITION. The terms claims are made in: what is unchanged between two states, which instruction writes
what, when the next event is a `Step` that runs a word, the invariant of the machine, and the end of a run. -/

namespace Sys2Proof.Machine

/-! ## Frames -/

/-- Every register but those listed is unchanged. -/
def SameRegsBut (written : List Reg) (s t : State) : Prop := ∀ r : Reg, r ∉ written → t.getV r = s.getV r

/-- Every byte of memory reads as before. -/
def SameBytes (s t : State) : Prop := ∀ a : Nat, t.mem.read a = s.mem.read a

/-- Every byte of memory but the `n` from `a` upwards reads as before. -/
def SameBytesOutside (a n : Nat) (s t : State) : Prop :=
  ∀ c : Nat, ¬(a ≤ c ∧ c < a + n) → t.mem.read c = s.mem.read c

/-- The call stack is unchanged: its pointer and all sixteen slots. -/
def SameStack (s t : State) : Prop := t.sp = s.sp ∧ t.stack = s.stack

/-- Both timers are unchanged. -/
def SameTimers (s t : State) : Prop := t.dt = s.dt ∧ t.st = s.st

/-- The framebuffer is unchanged. -/
def SamePixels (s t : State) : Prop := t.fb = s.fb

/-- The run state and the fault record are unchanged. -/
def SameRun (s t : State) : Prop := t.runState = s.runState ∧ t.fault = s.fault

/-- Both strobes are as before. -/
def SameStrobes (s t : State) : Prop := t.frame = s.frame ∧ t.keyWaitBegin = s.keyWaitBegin

/-- The input levels and the model's own fields (inbox, counter, freshness) are unchanged. -/
def SameHost (s t : State) : Prop :=
  t.ports = s.ports ∧ t.inbox = s.inbox ∧ t.draws = s.draws ∧ t.fresh = s.fresh

/-- Everything but the registers `V` and the two address registers `pc` and `I` is unchanged. -/
def SameBeyondRegs (s t : State) : Prop :=
  SameStack s t ∧ SameTimers s t ∧ SamePixels s t ∧ SameRun s t ∧ SameStrobes s t ∧ SameHost s t ∧ SameBytes s t

/-- An instruction that writes the registers listed and nothing else; `pc` keeps the fetch advance. -/
def OnlyRegs (written : List Reg) (s t : State) : Prop :=
  SameRegsBut written s t ∧ t.pc = s.pc ∧ t.i = s.i ∧ SameBeyondRegs s t

/-- An instruction that writes `pc` and nothing else. -/
def OnlyPc (s t : State) : Prop := SameRegsBut [] s t ∧ t.i = s.i ∧ SameBeyondRegs s t

/-- An instruction that writes `I` and nothing else. -/
def OnlyIndex (s t : State) : Prop := SameRegsBut [] s t ∧ t.pc = s.pc ∧ SameBeyondRegs s t

/-- `t` is `s` with the fault of kind `kind` taken: `Faulted`, the record written, nothing else changed (R87, R176). -/
def FaultTaken (kind : FaultKind) (pc : Word) (opcode : Option Word) (s t : State) : Prop :=
  t.runState = .faulted ∧ t.fault = some { kind := kind, pc := pc, opcode := opcode } ∧
  SameRegsBut [] s t ∧ t.pc = s.pc ∧ t.i = s.i ∧ SameStack s t ∧ SameTimers s t ∧ SamePixels s t ∧
  SameStrobes s t ∧ SameHost s t ∧ SameBytes s t

/-- Registers, `I`, call stack, framebuffer and memory are unchanged. -/
def SameData (s t : State) : Prop :=
  SameRegsBut [] s t ∧ t.i = s.i ∧ SameStack s t ∧ SamePixels s t ∧ SameBytes s t

/-- Neither strobe is pulsed. -/
def Quiet (t : State) : Prop := t.frame = false ∧ t.keyWaitBegin = false

/-- Sprite pixel (c, r) of `Dxyn`, for some set bit of the `n` rows at `I`, lands on the screen pixel (px, py)
(R151, R152). -/
def SpriteCovers (s : State) (x y : Reg) (n : Nibble) (px : Fin 64) (py : Fin 32) : Prop :=
  ∃ r c : Nat, r < n.toNat ∧ c < 8 ∧ (s.mem.read (s.effAddr r)).getLsbD (7 - c) = true ∧
    px.val = ((s.getV x).toNat + c) % 64 ∧ py.val = ((s.getV y).toNat + r) % 32

/-! ## Which instruction writes what (R11, R12) -/

/-- The six instructions that write a flag value into `VF` as a side effect (R12). -/
def writesFlag : Instr → Bool
  | .addReg _ _ | .subReg _ _ | .shr _ _ | .subnReg _ _ | .shl _ _ | .drw _ _ _ => true
  | .cls | .ret | .jp _ | .call _ | .seImm _ _ | .sneImm _ _ | .seReg _ _ | .ldImm _ _ | .addImm _ _
  | .ldReg _ _ | .orReg _ _ | .andReg _ _ | .xorReg _ _ | .sneReg _ _ | .ldI _ | .jpV0 _ | .rnd _ _ | .skp _
  | .sknp _ | .ldVxDt _ | .ldVxK _ | .ldDtVx _ | .ldStVx _ | .addI _ | .ldF _ | .ldB _ | .ldMemVx _
  | .ldVxMem _ => false

/-- The registers an instruction names as its destination: `Vx`, or for `Fx65` all of `V0` … `Vx` (R11). -/
def namesDestination (r : Reg) : Instr → Bool
  | .ldImm x _ | .addImm x _ | .ldReg x _ | .orReg x _ | .andReg x _ | .xorReg x _ | .addReg x _ | .subReg x _
  | .shr x _ | .subnReg x _ | .shl x _ | .rnd x _ | .ldVxDt x => r == x
  | .ldVxMem x => r.val ≤ x.val
  | .cls | .ret | .jp _ | .call _ | .seImm _ _ | .sneImm _ _ | .seReg _ _ | .sneReg _ _ | .ldI _ | .jpV0 _
  | .drw _ _ _ | .skp _ | .sknp _ | .ldVxK _ | .ldDtVx _ | .ldStVx _ | .addI _ | .ldF _ | .ldB _
  | .ldMemVx _ => false

/-- The instructions that write `pc` beyond the fetch advance (R15): jumps, call, return, skips. -/
def writesPc : Instr → Bool
  | .ret | .jp _ | .call _ | .jpV0 _ | .seImm _ _ | .sneImm _ _ | .seReg _ _ | .sneReg _ _ | .skp _
  | .sknp _ => true
  | .cls | .ldImm _ _ | .addImm _ _ | .ldReg _ _ | .orReg _ _ | .andReg _ _ | .xorReg _ _ | .addReg _ _
  | .subReg _ _ | .shr _ _ | .subnReg _ _ | .shl _ _ | .ldI _ | .rnd _ _ | .drw _ _ _ | .ldVxDt _ | .ldVxK _
  | .ldDtVx _ | .ldStVx _ | .addI _ | .ldF _ | .ldB _ | .ldMemVx _ | .ldVxMem _ => false

/-- The instructions that write `I` (R17). -/
def writesIndex : Instr → Bool
  | .ldI _ | .addI _ | .ldF _ | .ldMemVx _ | .ldVxMem _ => true
  | .cls | .ret | .jp _ | .call _ | .seImm _ _ | .sneImm _ _ | .seReg _ _ | .ldImm _ _ | .addImm _ _
  | .ldReg _ _ | .orReg _ _ | .andReg _ _ | .xorReg _ _ | .addReg _ _ | .subReg _ _ | .shr _ _ | .subnReg _ _
  | .shl _ _ | .sneReg _ _ | .jpV0 _ | .rnd _ _ | .drw _ _ _ | .skp _ | .sknp _ | .ldVxDt _ | .ldVxK _
  | .ldDtVx _ | .ldStVx _ | .ldB _ => false

/-- The fault an instruction may raise in the execute stage: "at most one possible fault kind" (R178). -/
def executeFault : Instr → Option FaultKind
  | .call _ => some .stackOverflow
  | .ret => some .stackUnderflow
  | .drw _ _ _ | .ldB _ | .ldMemVx _ | .ldVxMem _ => some .addressOutOfRange
  | .cls | .jp _ | .seImm _ _ | .sneImm _ _ | .seReg _ _ | .ldImm _ _ | .addImm _ _ | .ldReg _ _ | .orReg _ _
  | .andReg _ _ | .xorReg _ _ | .addReg _ _ | .subReg _ _ | .shr _ _ | .subnReg _ _ | .shl _ _ | .sneReg _ _
  | .ldI _ | .jpV0 _ | .rnd _ _ | .skp _ | .sknp _ | .ldVxDt _ | .ldVxK _ | .ldDtVx _ | .ldStVx _ | .addI _
  | .ldF _ => none

/-- The condition of a skip instruction, read with the inputs `p` (R110 to R113, R160, R161); `none` for an
instruction that is no skip. -/
def skipCondition (p : Ports) (s : State) : Instr → Option Bool
  | .seImm x kk => some (s.getV x == kk)
  | .sneImm x kk => some (s.getV x != kk)
  | .seReg x y => some (s.getV x == s.getV y)
  | .sneReg x y => some (s.getV x != s.getV y)
  | .skp x => some (if (s.getV x).toNat ≤ 15 then p.keys.getLsbD (s.getV x).toNat else p.keyOorSkp)
  | .sknp x => some (!if (s.getV x).toNat ≤ 15 then p.keys.getLsbD (s.getV x).toNat else p.keyOorSknp)
  | .cls | .ret | .jp _ | .call _ | .ldImm _ _ | .addImm _ _ | .ldReg _ _ | .orReg _ _ | .andReg _ _
  | .xorReg _ _ | .addReg _ _ | .subReg _ _ | .shr _ _ | .subnReg _ _ | .shl _ _ | .ldI _ | .jpV0 _
  | .rnd _ _ | .drw _ _ _ | .ldVxDt _ | .ldVxK _ | .ldDtVx _ | .ldStVx _ | .addI _ | .ldF _ | .ldB _
  | .ldMemVx _ | .ldVxMem _ => none

/-! ## Steps -/

/-- The next event is a `Step` with the inputs `p`, and `s'` is the state without it. -/
def NextIsStep (s : State) (p : Ports) (s' : State) : Prop := s.takeEvent = (.step p, s')

/-- The word the next fetch reads, where it can be read (R81). -/
def Fetches (s : State) (w : Word) : Prop :=
  s.pc.toNat + 1 < 4096 ∧ w = s.mem.read s.pc.toNat ++ s.mem.read (s.pc.toNat + 1)

/-! ## The invariant -/

/-- What a fault record says of the instruction, by kind (R170). -/
def FaultRecord.fits (f : FaultRecord) : Prop :=
  match f.kind with
  | .loadError => f.pc = 0x0200 ∧ f.opcode = none
  | .stackOverflow => ∃ nnn, f.opcode = some (encode (.call nnn))
  | .stackUnderflow => f.opcode = some 0x00EE
  | .unimplementedOpcode => ∃ w, f.opcode = some w ∧ legalWord w = false
  | .addressOutOfRange =>
    (f.opcode = none ∧ 0xFFF ≤ f.pc.toNat) ∨
      ∃ i, f.opcode = some (encode i) ∧ executeFault i = some .addressOutOfRange

/-- The invariant of the machine: the memory list is canonical; `Faulted` and the fault record go together
(R26, R28), the record fits its kind (R170), `pc` stands where the fault left it (R81, R87); `pc` and the stack
slots stay below the bounds of R15, so that `pc` never wraps; right after `Reset` nothing else has happened. -/
structure State.Inv (s : State) : Prop where
  memCanonical : s.mem.wf = true
  faultedIffRecord : s.runState = .faulted ↔ s.fault.isSome = true
  recordFits : ∀ f, s.fault = some f → f.fits
  recordPc : ∀ f, s.fault = some f → s.pc = if f.opcode.isSome then f.pc + 2 else f.pc
  pcBound : s.pc.toNat ≤ 0x10FE
  slotBound : ∀ k : Fin 16, s.stack[k.val].toNat ≤ 0x1000
  freshIsReset : s.fresh = true → s = { State.reset with inbox := s.inbox, draws := s.draws }

/-! ## The end of a run (R204) -/

/-- A run that has faulted: it stands still until `Reset` (R204a). -/
def State.hasFaulted (s : State) : Prop := s.runState = .faulted

/-- A program's conventional end, a jump to itself at `pc` (R204c); the hardware has no end of a run. -/
def State.atSelfJump (s : State) : Prop :=
  s.runState = .running ∧ ∃ nnn : Addr12, nnn.toNat = s.pc.toNat ∧ Fetches s (encode (.jp nnn))

end Sys2Proof.Machine
end

