-- ==== Sys2Proof/Certificates/Slice0/Obligations.lean ====
section
/-! DEFINITION. The statements for the provers. Each docstring names the rule of spec/ it formalises and, where a
clause rests on a choice of the spec or of the model, the decision or log entry it rests on. -/

open Sys2Proof Sys2Proof.Machine

/-! ## Encoding -/

/-- Decode and encode agree, on bytes as memory holds them (R43, R60 to R63): decoding the two bytes of any
instruction, whatever follows them, gives it back with every operand at every value. -/
def Obligations.DecodeReadsBackEveryEncoding : Prop :=
  ∀ (i : Instr) (rest : List Byte), decodeBytes (encodeBytes i ++ rest) = .ok (i, rest)

/-- The other direction (R64 to R66): a word that decodes is the encoding of what it decodes to, so that no bit
of it is lost and the word a fault record holds is the word fetched (log 9). -/
def Obligations.EncodeGivesBackEveryDecodedWord : Prop :=
  ∀ (w : Word) (i : Instr), decode w = .ok i → encode i = w

/-- The decoding procedure of R65 is the match and mask table of R64: a decoded word selects the row of its
instruction and no other row, a word that selects a row decodes, and any other is refused by name (R67). Which digits of a
pattern are compared is the spec's D3 and D4 (log 20). -/
def Obligations.DecoderFollowsTheOpcodeMap : Prop :=
  ∀ w : Word,
    (∀ i, decode w = .ok i →
      i.row.selects w = true ∧ ∀ r ∈ opcodeTable, r.selects w = true → r = i.row) ∧
    (legalWord w = true → ∃ i, decode w = .ok i) ∧
    (legalWord w = false → decode w = .error (.unimplemented w))

/-- Words of 95_test_vectors.md (DEC1 to DEC22): eleven that decode and one or more of each illegal group of R67.
That the refused words are no instructions is the spec's D3 and its resolution of C1 and C2 (log 20). -/
def Obligations.SpecWordsDecode : Prop :=
  decode 0x00E0#16 = .ok .cls ∧ decode 0x00EE#16 = .ok .ret ∧ decode 0x1ABC#16 = .ok (.jp 0xABC#12) ∧
  decode 0x5120#16 = .ok (.seReg 1 2) ∧ decode 0x9AB0#16 = .ok (.sneReg 10 11) ∧
  decode 0x8127#16 = .ok (.subnReg 1 2) ∧ decode 0x812E#16 = .ok (.shl 1 2) ∧
  decode 0xE19E#16 = .ok (.skp 1) ∧ decode 0xF10A#16 = .ok (.ldVxK 1) ∧
  decode 0xDFFF#16 = .ok (.drw 15 15 0xF#4) ∧ decode 0x6FAB#16 = .ok (.ldImm 15 0xAB#8) ∧
  decode 0x0000#16 = .error (.unimplemented 0x0000#16) ∧ decode 0x01E0#16 = .error (.unimplemented 0x01E0#16) ∧
  decode 0x5121#16 = .error (.unimplemented 0x5121#16) ∧ decode 0x8128#16 = .error (.unimplemented 0x8128#16) ∧
  decode 0x9ABF#16 = .error (.unimplemented 0x9ABF#16) ∧ decode 0xE19F#16 = .error (.unimplemented 0xE19F#16) ∧
  decode 0xF1FF#16 = .error (.unimplemented 0xF1FF#16)

/-! ## Steps and events -/

/-- A step runs the decoded instruction (R80 to R82): when the next event is a `Step` in `Running` and the two
bytes at `pc` decode, the step is `exec` of that instruction with `pc` advanced by 2, the Step's inputs on the
ports and the strobes low. With an empty inbox the inputs are free values (log 1, log 2). -/
def Obligations.StepRunsTheDecodedInstruction : Prop :=
  ∀ (s : State) (i : Instr), s.runState = .running → s.pc.toNat + 1 < 4096 →
    decode (s.mem.read s.pc.toNat ++ s.mem.read (s.pc.toNat + 1)) = .ok i →
    (s.inbox = [] → step s = exec i { s with
      pc := s.pc + 2, ports := freePorts s.draws, draws := s.draws + 1,
      frame := false, keyWaitBegin := false, fresh := false }) ∧
    (∀ p rest, s.inbox = .step p :: rest → step s = exec i { s with
      pc := s.pc + 2, ports := p, inbox := rest,
      frame := false, keyWaitBegin := false, fresh := false })

/-- A fetch beyond memory (R81, R170): `AddressOutOfRange` for every `pc` of 0xFFF and above, with `fault.pc` the
fetch address and no opcode; `pc` is not advanced and nothing else changes. The latch and the record are the spec's
D14 (log 7, log 8). -/
def Obligations.FetchBeyondMemoryFaults : Prop :=
  ∀ (s s' : State) (p : Ports), NextIsStep s p s' → s.runState = .running → 0xFFF ≤ s.pc.toNat →
    ∃ t, step s = .next t ∧ t.runState = .faulted ∧
      t.fault = some { kind := .addressOutOfRange, pc := s.pc, opcode := none } ∧
      t.pc = s.pc ∧ SameData s t ∧ SameTimers s t ∧ Quiet t ∧ t.inbox = s'.inbox

/-- A word outside the opcode map (R83, R174): `UnimplementedOpcode` at dispatch, `pc` already advanced, the
record holding the word and its address, nothing else changed. The latch and the record are the spec's D14
(log 7, log 8). -/
def Obligations.UndefinedWordFaultsAtDispatch : Prop :=
  ∀ (s s' : State) (p : Ports) (w : Word), NextIsStep s p s' → s.runState = .running → Fetches s w →
    legalWord w = false →
    ∃ t, step s = .next t ∧ t.runState = .faulted ∧
      t.fault = some { kind := .unimplementedOpcode, pc := s.pc, opcode := some w } ∧
      t.pc = s.pc + 2 ∧ SameData s t ∧ SameTimers s t ∧ Quiet t ∧ t.inbox = s'.inbox

/-- A `Step` in `AwaitingKey` or `Faulted` does nothing (R88; in `Faulted` by the spec's decision D32): no fetch,
`pc` unchanged, nothing pulsed. -/
def Obligations.StepDoesNothingUnlessRunning : Prop :=
  ∀ (s s' : State) (p : Ports), NextIsStep s p s' → s.runState ≠ .running →
    ∃ t, step s = .next t ∧ SameRun s t ∧ t.pc = s.pc ∧ SameData s t ∧ SameTimers s t ∧ Quiet t ∧
      t.inbox = s'.inbox

/-- `TimerTick` in any run state (R186; in `Faulted` by the spec's decision D23): each timer that is greater than
zero goes down by one, a zero timer stays zero, and nothing else changes. -/
def Obligations.TimerTickDecrementsBothTimers : Prop :=
  ∀ (s : State) (rest : List HostEvent), s.inbox = .timerTick :: rest →
    ∃ t, step s = .next t ∧
      t.dt.toNat = (if s.dt.toNat > 0 then s.dt.toNat - 1 else 0) ∧
      t.st.toNat = (if s.st.toNat > 0 then s.st.toNat - 1 else 0) ∧
      SameRun s t ∧ t.pc = s.pc ∧ SameData s t ∧ Quiet t ∧ t.inbox = rest

/-- "after N periods a timer that held v holds max(v − N, 0)" (R186), for N `TimerTick` events in a row (in
`Faulted` by the spec's D23). -/
def Obligations.RepeatedTicksCountDownToZero : Prop :=
  ∀ (n : Nat) (s : State) (rest : List HostEvent), s.inbox = List.replicate n .timerTick ++ rest →
    ∃ t : State, Host.Core.run Sys2Proof.core n s = .next t ∧
      t.dt.toNat = s.dt.toNat - n ∧ t.st.toNat = s.st.toNat - n ∧
      SameRun s t ∧ t.pc = s.pc ∧ SameData s t ∧ t.inbox = rest

/-- `KeyPress(k)` (R163): in `AwaitingKey(r)` it writes `k` into `V[r]` and resumes; otherwise it is ignored (the
spec's decision D22). -/
def Obligations.KeyPressEndsOnlyAWait : Prop :=
  ∀ (s : State) (k : Nibble) (rest : List HostEvent), s.inbox = .keyPress k :: rest →
    (∀ r, s.runState = .awaitingKey r →
      ∃ t, step s = .next t ∧ t.runState = .running ∧ t.fault = s.fault ∧ (t.getV r).toNat = k.toNat ∧
        SameRegsBut [r] s t ∧ t.pc = s.pc ∧ t.i = s.i ∧ SameStack s t ∧ SameTimers s t ∧ SamePixels s t ∧
        SameBytes s t ∧ Quiet t ∧ t.inbox = rest) ∧
    ((s.runState = .running ∨ s.runState = .faulted) →
      ∃ t, step s = .next t ∧ SameRun s t ∧ t.pc = s.pc ∧ SameData s t ∧ SameTimers s t ∧ Quiet t ∧
        t.inbox = rest)

/-- The wait as a whole (R88, R163, R192): any number of `Step` events while waiting perform nothing, and the key
press that follows writes the register and resumes at the same `pc`. -/
def Obligations.KeyWaitLastsUntilTheKeyPress : Prop :=
  ∀ (s : State) (r : Reg) (ps : List Ports) (k : Nibble) (rest : List HostEvent),
    s.runState = .awaitingKey r → s.inbox = ps.map .step ++ .keyPress k :: rest →
    ∃ t : State, Host.Core.run Sys2Proof.core (ps.length + 1) s = .next t ∧ t.runState = .running ∧
      t.fault = s.fault ∧ (t.getV r).toNat = k.toNat ∧ SameRegsBut [r] s t ∧ t.pc = s.pc ∧ t.i = s.i ∧
      SameStack s t ∧ SameTimers s t ∧ SamePixels s t ∧ SameBytes s t ∧ t.inbox = rest

/-- In `AwaitingKey(r)` "the only wake-up event is `KeyPress(k)`"; `TimerTick` does not wake the core, and `Reset`
leaves the state to the reset state (R192). All but the timers survives unchanged while waiting. -/
def Obligations.OnlyKeyPressOrResetEndsAWait : Prop :=
  ∀ (s t : State) (r : Reg), s.runState = .awaitingKey r → s.fresh = false → step s = .next t →
    (s.takeEvent.1 = .reset ∧ t.runState = .running) ∨
    (∃ k, s.takeEvent.1 = .keyPress k ∧ t.runState = .running ∧ (t.getV r).toNat = k.toNat ∧
      SameRegsBut [r] s t ∧ t.pc = s.pc) ∨
    (t.runState = .awaitingKey r ∧ t.fault = s.fault ∧ t.pc = s.pc ∧ SameData s t ∧
      (s.takeEvent.1 = .timerTick ∨ SameTimers s t))

/-- The `Reset` event (R200, R34), accepted in every state; memory goes back to its reset contents. The slots' and
memory's values and the acceptance in every state are the spec's D18, D7, D8, D17 and D33 (log 12 to 14, 17, 25). -/
def Obligations.ResetEventRestoresEveryValue : Prop :=
  ∀ (s : State) (rest : List HostEvent), s.inbox = .reset :: rest →
    ∃ t, step s = .next t ∧ (∀ r, t.getV r = 0) ∧ t.pc = 0x0200 ∧ t.i = 0 ∧ t.sp.val = 0 ∧
      (∀ k : Fin 16, t.stack[k.val] = 0) ∧ t.dt = 0 ∧ t.st = 0 ∧ (∀ px py, t.fb.pixel px py = false) ∧
      t.runState = .running ∧ t.fault = none ∧ (∀ a, t.mem.read a = State.reset.mem.read a) ∧ Quiet t

/-- Memory right after `Reset` (R34, R46 to R49): the font table of R48 at 0x050, zero everywhere else. The font
bytes, their place and the zeros are the spec's decisions D8, D7 and D17 (log 13, log 14, log 12). -/
def Obligations.ResetMemoryHoldsTheFont : Prop :=
  (∀ d : Fin 16, State.reset.mem.readList (0x050 + 5 * d.val) 5 =
    ([[0xF0, 0x90, 0x90, 0x90, 0xF0], [0x20, 0x60, 0x20, 0x20, 0x70], [0xF0, 0x10, 0xF0, 0x80, 0xF0],
      [0xF0, 0x10, 0xF0, 0x10, 0xF0], [0x90, 0x90, 0xF0, 0x10, 0x10], [0xF0, 0x80, 0xF0, 0x10, 0xF0],
      [0xF0, 0x80, 0xF0, 0x90, 0xF0], [0xF0, 0x10, 0x20, 0x40, 0x40], [0xF0, 0x90, 0xF0, 0x90, 0xF0],
      [0xF0, 0x90, 0xF0, 0x10, 0xF0], [0xF0, 0x90, 0xF0, 0x90, 0x90], [0xE0, 0x90, 0xE0, 0x90, 0xE0],
      [0xF0, 0x80, 0x80, 0x80, 0xF0], [0xE0, 0x90, 0x90, 0x90, 0xE0], [0xF0, 0x80, 0xF0, 0x80, 0xF0],
      [0xF0, 0x80, 0xF0, 0x80, 0x80]] : List (List Byte)).getD d.val []) ∧
  (∀ a : Nat, a < 0x050 ∨ 0x0A0 ≤ a → State.reset.mem.read a = 0)

/-- `Load(bytes)` right after `Reset` (R50): at most 3584 bytes are copied from 0x200 upwards, and nothing else
changes. When `Load` is legal is the spec's D24 (log 5). -/
def Obligations.LoadCopiesTheImage : Prop :=
  ∀ (s : State) (bytes : List Byte) (rest : List HostEvent), s.mem.wf = true → s.fresh = true →
    s.inbox = .load bytes :: rest → bytes.length + 0x200 ≤ 4096 →
    ∃ t, step s = .next t ∧ (∀ k (h : k < bytes.length), t.mem.read (0x200 + k) = bytes[k]) ∧
      SameBytesOutside 0x200 bytes.length s t ∧ SameRegsBut [] s t ∧ t.pc = s.pc ∧ t.i = s.i ∧
      SameStack s t ∧ SameTimers s t ∧ SamePixels s t ∧ SameRun s t ∧ Quiet t ∧ t.inbox = rest

/-- An image of more than 3584 bytes (R50, R171): `LoadError`, with `fault.pc` 0x0200 and no opcode; "leaves
memory unmodified", and all other state keeps its value. That it latches `Faulted` is the spec's D24. -/
def Obligations.OversizedLoadFaultsAndWritesNothing : Prop :=
  ∀ (s : State) (bytes : List Byte) (rest : List HostEvent), s.fresh = true →
    s.inbox = .load bytes :: rest → 4096 < bytes.length + 0x200 →
    ∃ t, step s = .next t ∧ t.runState = .faulted ∧
      t.fault = some { kind := .loadError, pc := 0x0200, opcode := none } ∧
      t.pc = s.pc ∧ SameData s t ∧ SameTimers s t ∧ Quiet t ∧ t.inbox = rest

/-! ## Control transfer -/

/-- `1nnn` (R101): `pc` is `nnn`, zero-extended, and nothing else changes. -/
def Obligations.JumpGoesToItsAddress : Prop :=
  ∀ (nnn : Addr12) (s : State), ∃ t, exec (.jp nnn) s = .next t ∧ t.pc.toNat = nnn.toNat ∧ OnlyPc s t

/-- `Bnnn` (R103): `pc` is `nnn + V0`, not reduced to 12 bits (the spec's D30), and nothing else changes. -/
def Obligations.JumpWithOffsetAddsV0 : Prop :=
  ∀ (nnn : Addr12) (s : State), ∃ t, exec (.jpV0 nnn) s = .next t ∧
    t.pc.toNat = nnn.toNat + (s.getV 0).toNat ∧ OnlyPc s t

/-- `2nnn` (R102, R172): with room on the stack, the advanced `pc` is pushed and `pc` is `nnn`; on a full stack,
`StackOverflow`, with no slot written. The record holds the call's address and word (R170). The range of `sp`
and the fault's form are the spec's D18 and D14 (log 8, log 9, log 11). -/
def Obligations.CallPushesAndJumps : Prop :=
  ∀ (nnn : Addr12) (s : State),
    (∀ h : s.sp.val < 16, ∃ t, exec (.call nnn) s = .next t ∧ t.stack[s.sp.val] = s.pc ∧
      (∀ k : Fin 16, k.val ≠ s.sp.val → t.stack[k.val] = s.stack[k.val]) ∧ t.sp.val = s.sp.val + 1 ∧
      t.pc.toNat = nnn.toNat ∧ SameRegsBut [] s t ∧ t.i = s.i ∧ SameTimers s t ∧ SamePixels s t ∧
      SameRun s t ∧ SameStrobes s t ∧ SameHost s t ∧ SameBytes s t) ∧
    (s.sp.val = 16 → ∃ t, exec (.call nnn) s = .next t ∧
      FaultTaken .stackOverflow (s.pc - 2) (some (encode (.call nnn))) s t)

/-- `00EE` (R100, R173): the top slot goes to `pc` and the slots keep their values; on an empty stack,
`StackUnderflow`, with `pc` not loaded. The record holds the address and the word 0x00EE (R170). The kept
slot and the fault's form are the spec's D18 and D14 (log 8, log 9, log 11). -/
def Obligations.ReturnPopsIntoPc : Prop :=
  ∀ s : State,
    (0 < s.sp.val → ∃ t, exec .ret s = .next t ∧ t.pc = s.stack[s.sp.val - 1] ∧
      t.sp.val = s.sp.val - 1 ∧ t.stack = s.stack ∧ SameRegsBut [] s t ∧ t.i = s.i ∧ SameTimers s t ∧
      SamePixels s t ∧ SameRun s t ∧ SameStrobes s t ∧ SameHost s t ∧ SameBytes s t) ∧
    (s.sp.val = 0 → ∃ t, exec .ret s = .next t ∧
      FaultTaken .stackUnderflow (s.pc - 2) (some 0x00EE#16) s t)

/-- The call and return round trip (R104): after a `2nnn`, in any state whose stack is balanced again (the same
`sp`, the same slots in use), `00EE` restores `pc` to the instruction after the call and `sp` to its value. -/
def Obligations.ReturnRestoresTheCaller : Prop :=
  ∀ (nnn : Addr12) (s : State), s.sp.val < 16 →
    ∃ t, exec (.call nnn) s = .next t ∧
      ∀ u : State, u.sp = t.sp → (∀ k : Fin 16, k.val < t.sp.val → u.stack[k.val] = t.stack[k.val]) →
        ∃ v, exec .ret u = .next v ∧ v.pc = s.pc ∧ v.sp = s.sp

/-! ## Skips -/

/-- The four skips on registers (R110 to R113): a further 2 is added to `pc` when the condition holds, and
nothing else changes. The two skips on keys have a statement of their own. -/
def Obligations.RegisterSkipsAdvancePcOnTheirCondition : Prop :=
  ∀ (x y : Reg) (kk : Byte) (s : State),
    (∃ t, exec (.seImm x kk) s = .next t ∧ OnlyPc s t ∧
      t.pc = if s.getV x = kk then s.pc + 2 else s.pc) ∧
    (∃ t, exec (.sneImm x kk) s = .next t ∧ OnlyPc s t ∧
      t.pc = if s.getV x ≠ kk then s.pc + 2 else s.pc) ∧
    (∃ t, exec (.seReg x y) s = .next t ∧ OnlyPc s t ∧
      t.pc = if s.getV x = s.getV y then s.pc + 2 else s.pc) ∧
    (∃ t, exec (.sneReg x y) s = .next t ∧ OnlyPc s t ∧
      t.pc = if s.getV x ≠ s.getV y then s.pc + 2 else s.pc)

/-- The two skips on keys (R160, R161): the level of key `Vx` for `Vx` up to 15; above that, a free Boolean of the
Step, one for each instruction (the spec's D11, log 2). Nothing but `pc` changes. -/
def Obligations.KeySkipsFollowTheKeyLevel : Prop :=
  ∀ (x : Reg) (s : State),
    (∃ t, exec (.skp x) s = .next t ∧ OnlyPc s t ∧
      ((s.getV x).toNat ≤ 15 →
        t.pc = if s.ports.keys.getLsbD (s.getV x).toNat = true then s.pc + 2 else s.pc) ∧
      (15 < (s.getV x).toNat → t.pc = if s.ports.keyOorSkp = true then s.pc + 2 else s.pc)) ∧
    (∃ t, exec (.sknp x) s = .next t ∧ OnlyPc s t ∧
      ((s.getV x).toNat ≤ 15 →
        t.pc = if s.ports.keys.getLsbD (s.getV x).toNat = false then s.pc + 2 else s.pc) ∧
      (15 < (s.getV x).toNat → t.pc = if s.ports.keyOorSknp = false then s.pc + 2 else s.pc))

/-- What a skip is over a whole `Step` (R114): `a + 4` when its condition holds and `a + 2` when it does not, with
no wrap; it writes nothing but `pc` and raises no exception, whatever follows it in memory. The conditions are
those of R110 to R113, R160 and R161; for a key skip with `Vx` above 15 the condition is the free Boolean of the
spec's D11, and one for each of the two instructions is the model's reading of vector KT5 (log 2). -/
def Obligations.SkipLeavesPcFourOrTwoFurther : Prop :=
  ∀ (s s' : State) (p : Ports) (w : Word) (i : Instr) (cond : Bool), NextIsStep s p s' →
    s.runState = .running → Fetches s w → decode w = .ok i → skipCondition p s i = some cond →
    ∃ t, step s = .next t ∧ t.pc.toNat = s.pc.toNat + (if cond then 4 else 2) ∧ SameRun s t ∧
      SameData s t ∧ SameTimers s t ∧ Quiet t

/-! ## Load, ALU, random -/

/-- Loads and logic (R120, R122 to R125): `Vx` takes the value, every other register, `VF` included, and all other
state is unchanged. -/
def Obligations.LoadsAndLogicWriteOnlyVx : Prop :=
  ∀ (x y : Reg) (kk : Byte) (s : State),
    (∃ t, exec (.ldImm x kk) s = .next t ∧ t.getV x = kk ∧ OnlyRegs [x] s t) ∧
    (∃ t, exec (.ldReg x y) s = .next t ∧ t.getV x = s.getV y ∧ OnlyRegs [x] s t) ∧
    (∃ t, exec (.orReg x y) s = .next t ∧ OnlyRegs [x] s t ∧
      ∀ k < 8, (t.getV x).getLsbD k = ((s.getV x).getLsbD k || (s.getV y).getLsbD k)) ∧
    (∃ t, exec (.andReg x y) s = .next t ∧ OnlyRegs [x] s t ∧
      ∀ k < 8, (t.getV x).getLsbD k = ((s.getV x).getLsbD k && (s.getV y).getLsbD k)) ∧
    (∃ t, exec (.xorReg x y) s = .next t ∧ OnlyRegs [x] s t ∧
      ∀ k < 8, (t.getV x).getLsbD k = xor ((s.getV x).getLsbD k) ((s.getV y).getLsbD k))

/-- `7xkk` (R121): the sum modulo 256, with `VF` not written even when the sum exceeds 255 (unless `x` = 15). -/
def Obligations.AddImmediateWrapsWithoutFlag : Prop :=
  ∀ (x : Reg) (kk : Byte) (s : State), ∃ t, exec (.addImm x kk) s = .next t ∧
    (t.getV x).toNat = ((s.getV x).toNat + kk.toNat) % 256 ∧ OnlyRegs [x] s t

/-- `8xy4` (R126): `VF` is 1 when the unsigned sum exceeds 255, else 0; `Vx` is the sum modulo 256, lost when
`x` = 15. -/
def Obligations.AddSetsCarry : Prop :=
  ∀ (x y : Reg) (s : State), ∃ t, exec (.addReg x y) s = .next t ∧
    (x ≠ 15 → (t.getV x).toNat = ((s.getV x).toNat + (s.getV y).toNat) % 256) ∧
    t.getV 15 = (if (s.getV x).toNat + (s.getV y).toNat > 255 then 1 else 0) ∧ OnlyRegs [x, 15] s t

/-- `8xy5` and `8xy7` (R127, R129): the difference modulo 256, and `VF` 1 exactly when the minuend is strictly
greater before the instruction; the difference is lost when `x` = 15. That the flag is 0 on equal operands is the
spec's resolution of the conflict C5 (log 29). -/
def Obligations.SubtractionsSetStrictlyGreater : Prop :=
  ∀ (x y : Reg) (s : State),
    (∃ t, exec (.subReg x y) s = .next t ∧
      (x ≠ 15 → (t.getV x).toNat = ((s.getV x).toNat + 256 - (s.getV y).toNat) % 256) ∧
      t.getV 15 = (if (s.getV x).toNat > (s.getV y).toNat then 1 else 0) ∧ OnlyRegs [x, 15] s t) ∧
    (∃ t, exec (.subnReg x y) s = .next t ∧
      (x ≠ 15 → (t.getV x).toNat = ((s.getV y).toNat + 256 - (s.getV x).toNat) % 256) ∧
      t.getV 15 = (if (s.getV y).toNat > (s.getV x).toNat then 1 else 0) ∧ OnlyRegs [x, 15] s t)

/-- `8xy6` and `8xyE` (R128, R130) with `SHIFT_SOURCE` at its default: `Vx` is shifted by one place, the bit
shifted out goes to `VF`, `y` is not used. That `Vx` is the source is the spec's D5 (log 15). -/
def Obligations.ShiftsPutTheBitShiftedOutInVF : Prop :=
  ∀ (x y : Reg) (s : State),
    (∃ t, exec (.shr x y) s = .next t ∧ (x ≠ 15 → (t.getV x).toNat = (s.getV x).toNat / 2) ∧
      (t.getV 15).toNat = (s.getV x).toNat % 2 ∧ OnlyRegs [x, 15] s t) ∧
    (∃ t, exec (.shl x y) s = .next t ∧ (x ≠ 15 → (t.getV x).toNat = 2 * (s.getV x).toNat % 256) ∧
      (t.getV 15).toNat = (s.getV x).toNat / 128 ∧ OnlyRegs [x, 15] s t)

/-- The same under either value of the parameter `SHIFT_SOURCE` (R5, R128, R130, D5). -/
def Obligations.ShiftsUnderEitherShiftSource : Prop :=
  ∀ (src : Config.ShiftSource) (x y : Reg) (s : State),
    (x ≠ 15 → ((shiftRightFrom src x y s).getV x).toNat =
      (s.getV (match src with | .vx => x | .vy => y)).toNat / 2) ∧
    ((shiftRightFrom src x y s).getV 15).toNat = (s.getV (match src with | .vx => x | .vy => y)).toNat % 2 ∧
    OnlyRegs [x, 15] s (shiftRightFrom src x y s) ∧
    (x ≠ 15 → ((shiftLeftFrom src x y s).getV x).toNat =
      2 * (s.getV (match src with | .vx => x | .vy => y)).toNat % 256) ∧
    ((shiftLeftFrom src x y s).getV 15).toNat = (s.getV (match src with | .vx => x | .vy => y)).toNat / 128 ∧
    OnlyRegs [x, 15] s (shiftLeftFrom src x y s)

/-- `Cxkk` (R131): `Vx` is the byte on the random input AND `kk`, for every byte the input may hold (the input is
free, the spec's D27, log 2); no flag. -/
def Obligations.RandomIsMaskedInput : Prop :=
  ∀ (x : Reg) (kk b : Byte) (s : State),
    ∃ t, exec (.rnd x kk) { s with ports := { s.ports with randByte := b } } = .next t ∧
      (∀ k < 8, (t.getV x).getLsbD k = (b.getLsbD k && kk.getLsbD k)) ∧
      OnlyRegs [x] { s with ports := { s.ports with randByte := b } } t

/-! ## Index register and memory -/

/-- `Annn` and `Fx1E` (R140, R141): `I` is `nnn`, or the sum modulo 65536; no flag, nothing else changes. -/
def Obligations.IndexIsLoadedOrAddedTo : Prop :=
  ∀ (nnn : Addr12) (x : Reg) (s : State),
    (∃ t, exec (.ldI nnn) s = .next t ∧ t.i.toNat = nnn.toNat ∧ OnlyIndex s t) ∧
    (∃ t, exec (.addI x) s = .next t ∧ t.i.toNat = (s.i.toNat + (s.getV x).toNat) % 65536 ∧ OnlyIndex s t)

/-- `Fx29` (R142): `I` is the font base plus five times the full 8-bit `Vx`. The base 0x050 and the absence of a
mask are the spec's D7 and D9 (log 14, log 21). -/
def Obligations.GlyphAddressIsFontBasePlusFiveVx : Prop :=
  ∀ (x : Reg) (s : State), ∃ t, exec (.ldF x) s = .next t ∧
    t.i.toNat = 0x050 + 5 * (s.getV x).toNat ∧ OnlyIndex s t

/-- `Fx33` (R143) where its digits fit in memory: as many bytes as the value has decimal digits, most significant
first, and no others; `I` is unchanged. Two digits for 10 to 99 is the spec's D10. -/
def Obligations.DecimalDigitsAreStoredWithoutLeadingZeros : Prop :=
  ∀ (x : Reg) (s : State) (m : Nat), s.mem.wf = true →
    m = (if 100 ≤ (s.getV x).toNat then 3 else if 10 ≤ (s.getV x).toNat then 2 else 1) →
    s.effAddr m ≤ 4096 →
    ∃ t, exec (.ldB x) s = .next t ∧
      (∀ k < m, (t.mem.read (s.effAddr k)).toNat = (s.getV x).toNat / 10 ^ (m - 1 - k) % 10) ∧
      SameBytesOutside (s.effAddr 0) m s t ∧ SameRegsBut [] s t ∧ t.pc = s.pc ∧ t.i = s.i ∧ SameStack s t ∧
      SameTimers s t ∧ SamePixels s t ∧ SameRun s t ∧ SameStrobes s t ∧ SameHost s t

/-- `Fx55` (R144) where its block lies in memory: `V0` to `Vx` inclusive at `I` and upwards, no other byte, and `I`
one past the last byte. The step of `I` is the spec's D6 (log 16). -/
def Obligations.BlockStoreWritesV0ToVx : Prop :=
  ∀ (x : Reg) (s : State), s.mem.wf = true → s.effAddr x.val < 4096 →
    ∃ t, exec (.ldMemVx x) s = .next t ∧
      (∀ k : Reg, k ≤ x → t.mem.read (s.effAddr k.val) = s.getV k) ∧
      SameBytesOutside (s.effAddr 0) (x.val + 1) s t ∧ t.i.toNat = s.i.toNat + x.val + 1 ∧
      SameRegsBut [] s t ∧ t.pc = s.pc ∧ SameStack s t ∧ SameTimers s t ∧ SamePixels s t ∧ SameRun s t ∧
      SameStrobes s t ∧ SameHost s t

/-- `Fx65` (R145) where its block lies in memory: `V0` to `Vx` inclusive from `I` and upwards, the registers above
unchanged, no byte of memory changed, and `I` one past the last byte (the spec's D6, log 16). -/
def Obligations.BlockLoadReadsV0ToVx : Prop :=
  ∀ (x : Reg) (s : State), s.effAddr x.val < 4096 →
    ∃ t, exec (.ldVxMem x) s = .next t ∧
      (∀ k : Reg, k ≤ x → t.getV k = s.mem.read (s.effAddr k.val)) ∧
      (∀ k : Reg, x < k → t.getV k = s.getV k) ∧ t.i.toNat = s.i.toNat + x.val + 1 ∧ t.pc = s.pc ∧
      SameBeyondRegs s t

/-- The four instructions that address memory through `I` (R58, R175): when any address they would use is 4096 or
above, `AddressOutOfRange` and no effect at all. That the check precedes every effect is the spec's D13 (log 28),
the fault's form D14 (log 8). -/
def Obligations.OutOfRangeAccessHasNoEffect : Prop :=
  ∀ (x y : Reg) (n : Nibble) (s : State),
    (n ≠ 0 → 4096 < s.effAddr n.toNat → ∃ t, exec (.drw x y n) s = .next t ∧
      FaultTaken .addressOutOfRange (s.pc - 2) (some (encode (.drw x y n))) s t) ∧
    (4096 < s.effAddr (if 100 ≤ (s.getV x).toNat then 3 else if 10 ≤ (s.getV x).toNat then 2 else 1) →
      ∃ t, exec (.ldB x) s = .next t ∧
        FaultTaken .addressOutOfRange (s.pc - 2) (some (encode (.ldB x))) s t) ∧
    (4096 ≤ s.effAddr x.val → ∃ t, exec (.ldMemVx x) s = .next t ∧
      FaultTaken .addressOutOfRange (s.pc - 2) (some (encode (.ldMemVx x))) s t) ∧
    (4096 ≤ s.effAddr x.val → ∃ t, exec (.ldVxMem x) s = .next t ∧
      FaultTaken .addressOutOfRange (s.pc - 2) (some (encode (.ldVxMem x))) s t)

/-- A store is seen by every later fetch (R56, the spec's D20): a word whose two bytes `Fx55` has stored is the
word a fetch from there reads. -/
def Obligations.StoredBytesAreFetched : Prop :=
  ∀ (x k k' : Reg) (s t : State), s.mem.wf = true → s.effAddr x.val < 4096 → k'.val = k.val + 1 → k' ≤ x →
    exec (.ldMemVx x) s = .next t → t.pc.toNat = s.effAddr k.val → Fetches t (s.getV k ++ s.getV k')

/-! ## Display -/

/-- `00E0` (R150): all 2048 pixels are 0 and nothing else changes; the strobe is not pulsed (the spec's D21). -/
def Obligations.ClearEmptiesTheFramebuffer : Prop :=
  ∀ s : State, ∃ t, exec .cls s = .next t ∧ (∀ px py, t.fb.pixel px py = false) ∧ SameRegsBut [] s t ∧
    t.pc = s.pc ∧ t.i = s.i ∧ SameStack s t ∧ SameTimers s t ∧ SameRun s t ∧ SameStrobes s t ∧ SameHost s t ∧
    SameBytes s t

/-- `Dxyn` (R151, R152) where its sprite lies in memory, height 0 included (the spec's D31): the pixels the sprite
covers are flipped and no others, `VF` is 1 exactly when a covered pixel was set, the frame strobe is pulsed, and
nothing else changes. The bit order and the reading of coordinates before `VF` are the spec's D25 and D12. -/
def Obligations.DrawFlipsTheSpritesPixels : Prop :=
  ∀ (x y : Reg) (n : Nibble) (s : State), n = 0 ∨ s.effAddr n.toNat ≤ 4096 →
    ∃ t, exec (.drw x y n) s = .next t ∧
      (∀ px py, SpriteCovers s x y n px py → t.fb.pixel px py = !s.fb.pixel px py) ∧
      (∀ px py, ¬SpriteCovers s x y n px py → t.fb.pixel px py = s.fb.pixel px py) ∧
      ((∃ px py, SpriteCovers s x y n px py ∧ s.fb.pixel px py = true) → t.getV 15 = 1) ∧
      ((¬∃ px py, SpriteCovers s x y n px py ∧ s.fb.pixel px py = true) → t.getV 15 = 0) ∧
      t.frame = true ∧ t.keyWaitBegin = s.keyWaitBegin ∧ SameRegsBut [15] s t ∧ t.pc = s.pc ∧ t.i = s.i ∧
      SameStack s t ∧ SameTimers s t ∧ SameRun s t ∧ SameHost s t ∧ SameBytes s t

/-- The same sprite drawn twice at the same place restores the framebuffer (R151 corner case f, C7): whatever
registers the second `Dxyn` takes its coordinates from, as long as they hold the first one's. Its `VF` is 1
exactly when the sprite covers a pixel that was off at first. -/
def Obligations.DrawingTwiceRestoresTheFramebuffer : Prop :=
  ∀ (x y x' y' : Reg) (n : Nibble) (s t : State), n = 0 ∨ s.effAddr n.toNat ≤ 4096 →
    exec (.drw x y n) s = .next t → t.getV x' = s.getV x → t.getV y' = s.getV y →
    ∃ u, exec (.drw x' y' n) t = .next u ∧ (∀ px py, u.fb.pixel px py = s.fb.pixel px py) ∧
      ((∃ px py, SpriteCovers s x y n px py ∧ s.fb.pixel px py = false) → u.getV 15 = 1) ∧
      ((¬∃ px py, SpriteCovers s x y n px py ∧ s.fb.pixel px py = false) → u.getV 15 = 0)

/-! ## Keypad and timers -/

/-- `Fx0A` (R162): the core enters `AwaitingKey(x)`, `key_wait_begin` is pulsed, no register is written. That the
key levels are not consulted is the spec's D34. -/
def Obligations.KeyWaitIsEntered : Prop :=
  ∀ (x : Reg) (s : State), ∃ t, exec (.ldVxK x) s = .next t ∧ t.runState = .awaitingKey x ∧
    t.keyWaitBegin = true ∧ t.fault = s.fault ∧ t.frame = s.frame ∧ t.pc = s.pc ∧ SameData s t ∧
    SameTimers s t ∧ SameHost s t

/-- `Fx07`, `Fx15`, `Fx18` (R164 to R166): the timers are read and written, each on its own. -/
def Obligations.TimersAreReadAndWritten : Prop :=
  ∀ (x : Reg) (s : State),
    (∃ t, exec (.ldVxDt x) s = .next t ∧ t.getV x = s.dt ∧ OnlyRegs [x] s t) ∧
    (∃ t, exec (.ldDtVx x) s = .next t ∧ t.dt = s.getV x ∧ t.st = s.st ∧ SameData s t ∧ t.pc = s.pc ∧
      SameRun s t ∧ SameStrobes s t ∧ SameHost s t) ∧
    (∃ t, exec (.ldStVx x) s = .next t ∧ t.st = s.getV x ∧ t.dt = s.dt ∧ SameData s t ∧ t.pc = s.pc ∧
      SameRun s t ∧ SameStrobes s t ∧ SameHost s t)

/-! ## Rules of the whole machine -/

/-- The flag register (R12): an instruction that is not one of the six flag writers leaves `VF` unchanged unless it
names it as a destination; a flag writer that does not fault leaves 0x00 or 0x01 there (the fault's form: the
spec's D14, log 8). -/
def Obligations.VFIsWrittenOnlyAsFlagOrDestination : Prop :=
  ∀ (i : Instr) (s t : State), exec i s = .next t →
    (writesFlag i = false → namesDestination 15 i = false → t.getV 15 = s.getV 15) ∧
    (writesFlag i = true → (t.getV 15 = 0 ∨ t.getV 15 = 1) ∨
      FaultTaken .addressOutOfRange (s.pc - 2) (some (encode i)) s t)

/-- Which instruction writes which register (R11): no instruction changes a register it does not name as its
destination, but for the flag in `VF`. -/
def Obligations.RegistersAreWrittenOnlyAsDestination : Prop :=
  ∀ (i : Instr) (r : Reg) (s t : State), exec i s = .next t → namesDestination r i = false →
    (r ≠ 15 ∨ writesFlag i = false) → t.getV r = s.getV r

/-- Memory is "mutated … only by store-type opcodes (0x33, 0x55)" (R42): every other instruction leaves every byte
as it is. -/
def Obligations.OnlyTheTwoStoresChangeMemory : Prop :=
  ∀ (i : Instr) (s t : State), exec i s = .next t → (∀ x, i ≠ .ldB x) → (∀ x, i ≠ .ldMemVx x) → SameBytes s t

/-- The framebuffer "is written only by `Dxyn` (XOR) and `00E0`" (R25); the frame strobe is raised by `Dxyn` alone
and `key_wait_begin` by `Fx0A` alone (R32, the spec's D21). -/
def Obligations.OnlyDrawAndClearChangeTheScreen : Prop :=
  ∀ (i : Instr) (s t : State), exec i s = .next t →
    ((∀ x y n, i ≠ .drw x y n) → i ≠ .cls → SamePixels s t) ∧
    ((∀ x y n, i ≠ .drw x y n) → t.frame = s.frame) ∧
    ((∀ x, i ≠ .ldVxK x) → t.keyWaitBegin = s.keyWaitBegin)

/-- The writers of the control state (the table of R23): the call stack is changed by `2nnn` and `00EE` alone (R18),
`I` by the five instructions of R17, `pc` beyond the fetch advance by those of R15 and R84, `dt` by `Fx15` and
`st` by `Fx18` alone among the instructions (R20, R22). -/
def Obligations.ControlRegistersHaveTheirOwnWriters : Prop :=
  ∀ (i : Instr) (s t : State), exec i s = .next t →
    ((∀ nnn, i ≠ .call nnn) → i ≠ .ret → SameStack s t) ∧
    (writesIndex i = false → t.i = s.i) ∧ (writesPc i = false → t.pc = s.pc) ∧
    ((∀ x, i ≠ .ldDtVx x) → t.dt = s.dt) ∧ ((∀ x, i ≠ .ldStVx x) → t.st = s.st)

/-- The level inputs are sampled by `Ex9E`, `ExA1` and `Cxkk` "and by nothing else" (R33): any other instruction
does the same whatever they are. The inputs as free values are the spec's D27 (log 2). -/
def Obligations.InputsReachOnlyTheirThreeInstructions : Prop :=
  ∀ (i : Instr) (s t : State) (p : Ports), (∀ x, i ≠ .skp x) → (∀ x, i ≠ .sknp x) → (∀ x kk, i ≠ .rnd x kk) →
    exec i s = .next t → exec i { s with ports := p } = .next { t with ports := p }

/-- "No instruction reads `st`" (R22): whatever it holds, an instruction does the same to everything else. -/
def Obligations.SoundTimerIsNeverRead : Prop :=
  ∀ (i : Instr) (s t : State) (b : Byte), exec i s = .next t →
    exec i { s with st := b } = .next (match i with | .ldStVx _ => t | _ => { t with st := b })

/-- Inside the core the framebuffer is read only by `Dxyn` (R25): whatever it holds, any other instruction does the
same to everything else. -/
def Obligations.FramebufferIsReadOnlyByDraw : Prop :=
  ∀ (i : Instr) (s t : State) (f : Framebuffer), (∀ x y n, i ≠ .drw x y n) → exec i s = .next t →
    exec i { s with fb := f } = .next (match i with | .cls => t | _ => { t with fb := f })

/-! ## Faults and run states -/

/-- Faults of the execute stage are precise (R87, R176 to R178): an instruction that leaves `Running` for `Faulted`
raised its one possible kind of fault, the record holds its address and its word, and nothing else changed. The
record's layout and the latch are the spec's D14. -/
def Obligations.ExecuteFaultsArePrecise : Prop :=
  ∀ (i : Instr) (s t : State), s.runState = .running → exec i s = .next t → t.runState = .faulted →
    ∃ kind, executeFault i = some kind ∧ FaultTaken kind (s.pc - 2) (some (encode i)) s t

/-- The fault latch is sticky (R179, the spec's D14 and D33): in `Faulted`, every event but `Reset` leaves the run
state, the record, `pc` and all data as they are; only `TimerTick` changes the timers. -/
def Obligations.FaultedIsLeftOnlyByReset : Prop :=
  ∀ s t : State, s.runState = .faulted → s.fresh = false → step s = .next t →
    (s.takeEvent.1 = .reset ∧ t.runState = .running ∧ t.fault = none) ∨
    (SameRun s t ∧ t.pc = s.pc ∧ SameData s t ∧ (s.takeEvent.1 = .timerTick ∨ SameTimers s t))

/-- The transitions of `run_state` (R27): from `Running` a `Step` stays, faults, or on `Fx0A` waits; a `KeyPress`
ends a wait and is otherwise ignored; a `Step` elsewhere and a `TimerTick` anywhere change nothing; `Reset`
always gives `Running`; `Load` gives `Faulted` exactly when the image is too long. The rows of `Faulted`
and of ignored events are the spec's D14, D22, D24 and D32 (log 25). -/
def Obligations.RunStateFollowsItsTransitions : Prop :=
  ∀ s t : State, step s = .next t →
    (∀ p, s.takeEvent.1 = .step p → s.runState = .running →
      (∀ w x, Fetches s w → decode w = .ok (.ldVxK x) → t.runState = .awaitingKey x) ∧
      ((¬∃ w x, Fetches s w ∧ decode w = .ok (.ldVxK x)) →
        t.runState = .running ∨ t.runState = .faulted)) ∧
    (∀ p, s.takeEvent.1 = .step p → s.runState ≠ .running → t.runState = s.runState) ∧
    (∀ k r, s.takeEvent.1 = .keyPress k → s.runState = .awaitingKey r → t.runState = .running) ∧
    (∀ k, s.takeEvent.1 = .keyPress k → s.runState = .running ∨ s.runState = .faulted →
      t.runState = s.runState) ∧
    (s.takeEvent.1 = .timerTick → t.runState = s.runState) ∧
    (s.takeEvent.1 = .reset → t.runState = .running) ∧
    (∀ bytes, s.takeEvent.1 = .load bytes →
      t.runState = if bytes.length ≤ 3584 then s.runState else .faulted)

/-- The machine never stops but for a late `Load`: a `Load` that is not the first event after `Reset` "has no
meaning in this spec and a model refuses it" (R50, the spec's D24, log 5), and in every other case, whatever the
state and the event, a step answers a next state (log 8). -/
def Obligations.StepAnswersUnlessLoadIsLate : Prop :=
  ∀ s : State,
    (s.fresh = false → (∃ bytes, s.takeEvent.1 = .load bytes) → step s = .refused .loadNotAfterReset) ∧
    ((s.fresh = true ∨ ∀ bytes, s.takeEvent.1 ≠ .load bytes) → ∃ t, step s = .next t)

/-- A jump to itself (R204c): every `Step` repeats the same instruction and nothing changes. -/
def Obligations.SelfJumpStandsStill : Prop :=
  ∀ (s s' : State) (p : Ports), s.atSelfJump → NextIsStep s p s' →
    ∃ t, step s = .next t ∧ t.pc = s.pc ∧ SameRun s t ∧ SameData s t ∧ SameTimers s t ∧ t.atSelfJump

/-! ## The invariant -/

/-- Every step of the machine keeps its invariant (R15, R18, R26, R28, R40, R170): memory canonical, fault record
and run state in step, the record true to its kind, `pc` and the stack slots within the bounds of R15. The record
is the spec's D14 (log 7), canonical memory and freshness are the model's own (log 12, log 5). -/
def Obligations.StepKeepsTheInvariant : Prop :=
  ∀ s t : State, s.Inv → step s = .next t → t.Inv

/-- The invariant holds right after `Reset`, whatever the host does next. -/
def Obligations.ResetMeetsTheInvariant : Prop :=
  ∀ (events : List HostEvent) (n : Nat), State.Inv { State.reset with inbox := events, draws := n }

/-! ## Parameters -/

/-- The parameters of R5 that no other statement varies, at every value: memory after `Reset` holds the font table
at its base and `MEM_INIT` elsewhere, and at the defaults it is the memory of `State.reset`; `Fx29` points five
bytes for each digit from the base; the host reads the code of a fault from the list of codes; a block transfer
leaves `I` alone under the other value of `BLOCK_XFER_I_STEP`. The parameters are the spec's D6, D7, D8, D15 and
D17 (log 8, log 12, log 13, log 14, log 16). -/
def Obligations.ParametersMayTakeAnyValue : Prop :=
  ∀ (base : Nat) (table : List Byte) (init : Byte) (codes : Vector Nat 5) (s : State) (x : Reg),
    (∀ a, a < 4096 → (resetMemory base table init).read a =
      if h : base ≤ a ∧ a - base < table.length then table[a - base]'h.2 else init) ∧
    (∀ a, (s.resetEvent resetMemory).mem.read a = State.reset.mem.read a) ∧
    ((s.pointAtGlyph x base).i.toNat = (base + 5 * (s.getV x).toNat) % 65536 ∧
      OnlyIndex s (s.pointAtGlyph x base)) ∧
    (∀ f, s.fault = some f → s.faultCode codes = some (match f.kind with
      | .loadError => codes[0] | .stackOverflow => codes[1] | .stackUnderflow => codes[2]
      | .unimplementedOpcode => codes[3] | .addressOutOfRange => codes[4])) ∧
    (∀ t, s.storeBlock .unchanged x = .ok t → t.i = s.i) ∧ (∀ t, s.loadBlock .unchanged x = .ok t → t.i = s.i)
end

