-- ==== Sys2Proof/Laws/Decode.lean ====
section
/-! SUPPORT. The bits of an encoded word, format by format (R61, R62): what each field of it reads as. -/

namespace Sys2Proof

theorem getLsbD_wordXKK (a b : Nibble) (kk : Byte) (i : Nat) :
    (wordXKK a b kk).getLsbD i =
      if i < 8 then kk.getLsbD i else if i < 12 then b.getLsbD (i - 8) else a.getLsbD (i - 12) := by
  simp only [wordXKK, BitVec.getLsbD_append]
  grind

theorem getLsbD_wordXYN (a b c d : Nibble) (i : Nat) :
    (wordXYN a b c d).getLsbD i =
      if i < 4 then d.getLsbD i else if i < 8 then c.getLsbD (i - 4)
      else if i < 12 then b.getLsbD (i - 8) else a.getLsbD (i - 12) := by
  simp only [wordXYN, BitVec.getLsbD_append]
  grind

theorem getLsbD_wordNNN (a : Nibble) (nnn : Addr12) (i : Nat) :
    (wordNNN a nnn).getLsbD i = if i < 12 then nnn.getLsbD i else a.getLsbD (i - 12) := by
  simp only [wordNNN, BitVec.getLsbD_append]

@[simp] theorem toFin_regField (r : Reg) : (regField r).toFin = r := rfl

@[simp] theorem fieldN0_wordXKK (a b : Nibble) (kk : Byte) : fieldN0 (wordXKK a b kk) = a := by
  apply BitVec.eq_of_getLsbD_eq; intro i hi; simp [fieldN0, getLsbD_wordXKK]; grind

@[simp] theorem fieldX_wordXKK (a : Nibble) (r : Reg) (kk : Byte) :
    fieldX (wordXKK a (regField r) kk) = r := by
  have : (wordXKK a (regField r) kk).extractLsb' 8 4 = regField r := by
    apply BitVec.eq_of_getLsbD_eq; intro i hi; simp [getLsbD_wordXKK]; grind
  simp [fieldX, this]

@[simp] theorem fieldKK_wordXKK (a b : Nibble) (kk : Byte) : fieldKK (wordXKK a b kk) = kk := by
  apply BitVec.eq_of_getLsbD_eq; intro i hi; simp [fieldKK, getLsbD_wordXKK]; grind

@[simp] theorem fieldN0_wordXYN (a b c d : Nibble) : fieldN0 (wordXYN a b c d) = a := by
  apply BitVec.eq_of_getLsbD_eq; intro i hi; simp [fieldN0, getLsbD_wordXYN]; grind

@[simp] theorem fieldX_wordXYN (a c d : Nibble) (r : Reg) : fieldX (wordXYN a (regField r) c d) = r := by
  have : (wordXYN a (regField r) c d).extractLsb' 8 4 = regField r := by
    apply BitVec.eq_of_getLsbD_eq; intro i hi; simp [getLsbD_wordXYN]; grind
  simp [fieldX, this]

@[simp] theorem fieldY_wordXYN (a b d : Nibble) (r : Reg) : fieldY (wordXYN a b (regField r) d) = r := by
  have : (wordXYN a b (regField r) d).extractLsb' 4 4 = regField r := by
    apply BitVec.eq_of_getLsbD_eq; intro i hi; simp [getLsbD_wordXYN]; grind
  simp [fieldY, this]

@[simp] theorem fieldN_wordXYN (a b c d : Nibble) : fieldN (wordXYN a b c d) = d := by
  apply BitVec.eq_of_getLsbD_eq; intro i hi; simp [fieldN, getLsbD_wordXYN]; grind

@[simp] theorem fieldN0_wordNNN (a : Nibble) (nnn : Addr12) : fieldN0 (wordNNN a nnn) = a := by
  apply BitVec.eq_of_getLsbD_eq; intro i hi; simp [fieldN0, getLsbD_wordNNN, hi]

@[simp] theorem fieldNNN_wordNNN (a : Nibble) (nnn : Addr12) : fieldNNN (wordNNN a nnn) = nnn := by
  apply BitVec.eq_of_getLsbD_eq; intro i hi; simp [fieldNNN, getLsbD_wordNNN]; grind

/-! The words put together from their fields, for reading a decoded word back (R61 "the fields overlap"). -/

theorem getLsbD_regField_fieldX (w : Word) (i : Nat) :
    (regField (fieldX w)).getLsbD i = (decide (i < 4) && w.getLsbD (8 + i)) := by
  exact BitVec.getLsbD_extractLsb' 8 4 w i

theorem getLsbD_regField_fieldY (w : Word) (i : Nat) :
    (regField (fieldY w)).getLsbD i = (decide (i < 4) && w.getLsbD (4 + i)) := by
  exact BitVec.getLsbD_extractLsb' 4 4 w i

theorem wordNNN_fields (w : Word) : wordNNN (fieldN0 w) (fieldNNN w) = w := by
  apply BitVec.eq_of_getLsbD_eq; intro i hi
  simp only [getLsbD_wordNNN, fieldN0, fieldNNN, BitVec.getLsbD_extractLsb']; grind

theorem wordXKK_fields (w : Word) : wordXKK (fieldN0 w) (regField (fieldX w)) (fieldKK w) = w := by
  apply BitVec.eq_of_getLsbD_eq; intro i hi
  simp only [getLsbD_wordXKK, getLsbD_regField_fieldX, fieldN0, fieldKK, BitVec.getLsbD_extractLsb']
  grind

theorem wordXYN_fields (w : Word) :
    wordXYN (fieldN0 w) (regField (fieldX w)) (regField (fieldY w)) (fieldN w) = w := by
  apply BitVec.eq_of_getLsbD_eq; intro i hi
  simp only [getLsbD_wordXYN, getLsbD_regField_fieldX, getLsbD_regField_fieldY, fieldN0, fieldN,
    BitVec.getLsbD_extractLsb']
  grind

/-- The two bytes of a word, put together again (R43). -/
@[simp] theorem wordOfBytes_bytes (w : Word) : wordOfBytes (highByte w) (lowByte w) = w := by
  apply BitVec.eq_of_getLsbD_eq; intro i hi
  simp only [wordOfBytes, highByte, lowByte, BitVec.getLsbD_append, BitVec.getLsbD_extractLsb']; grind

/-! The mask comparisons of R64 on a word in each format. -/

theorem wordXKK_and_F000 (a b : Nibble) (kk : Byte) : wordXKK a b kk &&& 0xF000#16 = wordXKK a 0 0 := by
  apply BitVec.eq_of_getLsbD_eq; intro i hi
  simp only [BitVec.getLsbD_and, getLsbD_wordXKK]; interval_cases i <;> simp

theorem wordXKK_and_F0FF (a b : Nibble) (kk : Byte) : wordXKK a b kk &&& 0xF0FF#16 = wordXKK a 0 kk := by
  apply BitVec.eq_of_getLsbD_eq; intro i hi
  simp only [BitVec.getLsbD_and, getLsbD_wordXKK]; interval_cases i <;> simp

theorem wordXYN_and_F00F (a b c d : Nibble) : wordXYN a b c d &&& 0xF00F#16 = wordXYN a 0 0 d := by
  apply BitVec.eq_of_getLsbD_eq; intro i hi
  simp only [BitVec.getLsbD_and, getLsbD_wordXYN]; interval_cases i <;> simp

theorem wordXYN_and_F000 (a b c d : Nibble) : wordXYN a b c d &&& 0xF000#16 = wordXYN a 0 0 0 := by
  apply BitVec.eq_of_getLsbD_eq; intro i hi
  simp only [BitVec.getLsbD_and, getLsbD_wordXYN]; interval_cases i <;> simp

theorem wordNNN_and_F000 (a : Nibble) (nnn : Addr12) : wordNNN a nnn &&& 0xF000#16 = wordNNN a 0 := by
  apply BitVec.eq_of_getLsbD_eq; intro i hi
  simp only [BitVec.getLsbD_and, getLsbD_wordNNN]; interval_cases i <;> simp

end Sys2Proof
end

