-- ==== Sys2Proof/Laws/State.lean ====
section
/-! SUPPORT. One lemma per field and update of State, true by `rfl`, so that no proof unfolds an update; and what a
register reads as after each update. -/

namespace Sys2Proof.Machine

variable (s : State)

/-! ### `setV` -/

@[simp] theorem setV_v (x : Reg) (b : Byte) : (s.setV x b).v = s.v.set x.val b := rfl
@[simp] theorem setV_pc (x : Reg) (b : Byte) : (s.setV x b).pc = s.pc := rfl
@[simp] theorem setV_i (x : Reg) (b : Byte) : (s.setV x b).i = s.i := rfl
@[simp] theorem setV_sp (x : Reg) (b : Byte) : (s.setV x b).sp = s.sp := rfl
@[simp] theorem setV_stack (x : Reg) (b : Byte) : (s.setV x b).stack = s.stack := rfl
@[simp] theorem setV_dt (x : Reg) (b : Byte) : (s.setV x b).dt = s.dt := rfl
@[simp] theorem setV_st (x : Reg) (b : Byte) : (s.setV x b).st = s.st := rfl
@[simp] theorem setV_fb (x : Reg) (b : Byte) : (s.setV x b).fb = s.fb := rfl
@[simp] theorem setV_runState (x : Reg) (b : Byte) : (s.setV x b).runState = s.runState := rfl
@[simp] theorem setV_fault (x : Reg) (b : Byte) : (s.setV x b).fault = s.fault := rfl
@[simp] theorem setV_mem (x : Reg) (b : Byte) : (s.setV x b).mem = s.mem := rfl
@[simp] theorem setV_frame (x : Reg) (b : Byte) : (s.setV x b).frame = s.frame := rfl
@[simp] theorem setV_keyWaitBegin (x : Reg) (b : Byte) : (s.setV x b).keyWaitBegin = s.keyWaitBegin := rfl
@[simp] theorem setV_ports (x : Reg) (b : Byte) : (s.setV x b).ports = s.ports := rfl
@[simp] theorem setV_inbox (x : Reg) (b : Byte) : (s.setV x b).inbox = s.inbox := rfl
@[simp] theorem setV_draws (x : Reg) (b : Byte) : (s.setV x b).draws = s.draws := rfl
@[simp] theorem setV_fresh (x : Reg) (b : Byte) : (s.setV x b).fresh = s.fresh := rfl

/-! ### `skipIf` -/

@[simp] theorem skipIf_v (c : Bool) : (s.skipIf c).v = s.v := rfl
@[simp] theorem skipIf_pc (c : Bool) : (s.skipIf c).pc = if c then s.pc + 2 else s.pc := rfl
@[simp] theorem skipIf_i (c : Bool) : (s.skipIf c).i = s.i := rfl
@[simp] theorem skipIf_sp (c : Bool) : (s.skipIf c).sp = s.sp := rfl
@[simp] theorem skipIf_stack (c : Bool) : (s.skipIf c).stack = s.stack := rfl
@[simp] theorem skipIf_dt (c : Bool) : (s.skipIf c).dt = s.dt := rfl
@[simp] theorem skipIf_st (c : Bool) : (s.skipIf c).st = s.st := rfl
@[simp] theorem skipIf_fb (c : Bool) : (s.skipIf c).fb = s.fb := rfl
@[simp] theorem skipIf_runState (c : Bool) : (s.skipIf c).runState = s.runState := rfl
@[simp] theorem skipIf_fault (c : Bool) : (s.skipIf c).fault = s.fault := rfl
@[simp] theorem skipIf_mem (c : Bool) : (s.skipIf c).mem = s.mem := rfl
@[simp] theorem skipIf_frame (c : Bool) : (s.skipIf c).frame = s.frame := rfl
@[simp] theorem skipIf_keyWaitBegin (c : Bool) : (s.skipIf c).keyWaitBegin = s.keyWaitBegin := rfl
@[simp] theorem skipIf_ports (c : Bool) : (s.skipIf c).ports = s.ports := rfl
@[simp] theorem skipIf_inbox (c : Bool) : (s.skipIf c).inbox = s.inbox := rfl
@[simp] theorem skipIf_draws (c : Bool) : (s.skipIf c).draws = s.draws := rfl
@[simp] theorem skipIf_fresh (c : Bool) : (s.skipIf c).fresh = s.fresh := rfl

/-! ### `jumpTo` -/

@[simp] theorem jumpTo_v (a : Word) : (s.jumpTo a).v = s.v := rfl
@[simp] theorem jumpTo_pc (a : Word) : (s.jumpTo a).pc = a := rfl
@[simp] theorem jumpTo_i (a : Word) : (s.jumpTo a).i = s.i := rfl
@[simp] theorem jumpTo_sp (a : Word) : (s.jumpTo a).sp = s.sp := rfl
@[simp] theorem jumpTo_stack (a : Word) : (s.jumpTo a).stack = s.stack := rfl
@[simp] theorem jumpTo_dt (a : Word) : (s.jumpTo a).dt = s.dt := rfl
@[simp] theorem jumpTo_st (a : Word) : (s.jumpTo a).st = s.st := rfl
@[simp] theorem jumpTo_fb (a : Word) : (s.jumpTo a).fb = s.fb := rfl
@[simp] theorem jumpTo_runState (a : Word) : (s.jumpTo a).runState = s.runState := rfl
@[simp] theorem jumpTo_fault (a : Word) : (s.jumpTo a).fault = s.fault := rfl
@[simp] theorem jumpTo_mem (a : Word) : (s.jumpTo a).mem = s.mem := rfl
@[simp] theorem jumpTo_frame (a : Word) : (s.jumpTo a).frame = s.frame := rfl
@[simp] theorem jumpTo_keyWaitBegin (a : Word) : (s.jumpTo a).keyWaitBegin = s.keyWaitBegin := rfl
@[simp] theorem jumpTo_ports (a : Word) : (s.jumpTo a).ports = s.ports := rfl
@[simp] theorem jumpTo_inbox (a : Word) : (s.jumpTo a).inbox = s.inbox := rfl
@[simp] theorem jumpTo_draws (a : Word) : (s.jumpTo a).draws = s.draws := rfl
@[simp] theorem jumpTo_fresh (a : Word) : (s.jumpTo a).fresh = s.fresh := rfl

/-! ### `advancePc` -/

@[simp] theorem advancePc_v : (s.advancePc).v = s.v := rfl
@[simp] theorem advancePc_pc : (s.advancePc).pc = s.pc + 2 := rfl
@[simp] theorem advancePc_i : (s.advancePc).i = s.i := rfl
@[simp] theorem advancePc_sp : (s.advancePc).sp = s.sp := rfl
@[simp] theorem advancePc_stack : (s.advancePc).stack = s.stack := rfl
@[simp] theorem advancePc_dt : (s.advancePc).dt = s.dt := rfl
@[simp] theorem advancePc_st : (s.advancePc).st = s.st := rfl
@[simp] theorem advancePc_fb : (s.advancePc).fb = s.fb := rfl
@[simp] theorem advancePc_runState : (s.advancePc).runState = s.runState := rfl
@[simp] theorem advancePc_fault : (s.advancePc).fault = s.fault := rfl
@[simp] theorem advancePc_mem : (s.advancePc).mem = s.mem := rfl
@[simp] theorem advancePc_frame : (s.advancePc).frame = s.frame := rfl
@[simp] theorem advancePc_keyWaitBegin : (s.advancePc).keyWaitBegin = s.keyWaitBegin := rfl
@[simp] theorem advancePc_ports : (s.advancePc).ports = s.ports := rfl
@[simp] theorem advancePc_inbox : (s.advancePc).inbox = s.inbox := rfl
@[simp] theorem advancePc_draws : (s.advancePc).draws = s.draws := rfl
@[simp] theorem advancePc_fresh : (s.advancePc).fresh = s.fresh := rfl

/-! ### `enterFault` -/

@[simp] theorem enterFault_v (k : FaultKind) (a : Word) (w : Option Word) : (s.enterFault k a w).v = s.v := rfl
@[simp] theorem enterFault_pc (k : FaultKind) (a : Word) (w : Option Word) : (s.enterFault k a w).pc = s.pc := rfl
@[simp] theorem enterFault_i (k : FaultKind) (a : Word) (w : Option Word) : (s.enterFault k a w).i = s.i := rfl
@[simp] theorem enterFault_sp (k : FaultKind) (a : Word) (w : Option Word) : (s.enterFault k a w).sp = s.sp := rfl
@[simp] theorem enterFault_stack (k : FaultKind) (a : Word) (w : Option Word) : (s.enterFault k a w).stack = s.stack := rfl
@[simp] theorem enterFault_dt (k : FaultKind) (a : Word) (w : Option Word) : (s.enterFault k a w).dt = s.dt := rfl
@[simp] theorem enterFault_st (k : FaultKind) (a : Word) (w : Option Word) : (s.enterFault k a w).st = s.st := rfl
@[simp] theorem enterFault_fb (k : FaultKind) (a : Word) (w : Option Word) : (s.enterFault k a w).fb = s.fb := rfl
@[simp] theorem enterFault_runState (k : FaultKind) (a : Word) (w : Option Word) : (s.enterFault k a w).runState = .faulted := rfl
@[simp] theorem enterFault_fault (k : FaultKind) (a : Word) (w : Option Word) : (s.enterFault k a w).fault = some { kind := k, pc := a, opcode := w } := rfl
@[simp] theorem enterFault_mem (k : FaultKind) (a : Word) (w : Option Word) : (s.enterFault k a w).mem = s.mem := rfl
@[simp] theorem enterFault_frame (k : FaultKind) (a : Word) (w : Option Word) : (s.enterFault k a w).frame = s.frame := rfl
@[simp] theorem enterFault_keyWaitBegin (k : FaultKind) (a : Word) (w : Option Word) : (s.enterFault k a w).keyWaitBegin = s.keyWaitBegin := rfl
@[simp] theorem enterFault_ports (k : FaultKind) (a : Word) (w : Option Word) : (s.enterFault k a w).ports = s.ports := rfl
@[simp] theorem enterFault_inbox (k : FaultKind) (a : Word) (w : Option Word) : (s.enterFault k a w).inbox = s.inbox := rfl
@[simp] theorem enterFault_draws (k : FaultKind) (a : Word) (w : Option Word) : (s.enterFault k a w).draws = s.draws := rfl
@[simp] theorem enterFault_fresh (k : FaultKind) (a : Word) (w : Option Word) : (s.enterFault k a w).fresh = s.fresh := rfl

/-! ### `raise` -/

@[simp] theorem raise_v (k : FaultKind) (j : Instr) : (s.raise k j).v = s.v := rfl
@[simp] theorem raise_pc (k : FaultKind) (j : Instr) : (s.raise k j).pc = s.pc := rfl
@[simp] theorem raise_i (k : FaultKind) (j : Instr) : (s.raise k j).i = s.i := rfl
@[simp] theorem raise_sp (k : FaultKind) (j : Instr) : (s.raise k j).sp = s.sp := rfl
@[simp] theorem raise_stack (k : FaultKind) (j : Instr) : (s.raise k j).stack = s.stack := rfl
@[simp] theorem raise_dt (k : FaultKind) (j : Instr) : (s.raise k j).dt = s.dt := rfl
@[simp] theorem raise_st (k : FaultKind) (j : Instr) : (s.raise k j).st = s.st := rfl
@[simp] theorem raise_fb (k : FaultKind) (j : Instr) : (s.raise k j).fb = s.fb := rfl
@[simp] theorem raise_runState (k : FaultKind) (j : Instr) : (s.raise k j).runState = .faulted := rfl
@[simp] theorem raise_fault (k : FaultKind) (j : Instr) : (s.raise k j).fault = some { kind := k, pc := s.pc - 2, opcode := some (encode j) } := rfl
@[simp] theorem raise_mem (k : FaultKind) (j : Instr) : (s.raise k j).mem = s.mem := rfl
@[simp] theorem raise_frame (k : FaultKind) (j : Instr) : (s.raise k j).frame = s.frame := rfl
@[simp] theorem raise_keyWaitBegin (k : FaultKind) (j : Instr) : (s.raise k j).keyWaitBegin = s.keyWaitBegin := rfl
@[simp] theorem raise_ports (k : FaultKind) (j : Instr) : (s.raise k j).ports = s.ports := rfl
@[simp] theorem raise_inbox (k : FaultKind) (j : Instr) : (s.raise k j).inbox = s.inbox := rfl
@[simp] theorem raise_draws (k : FaultKind) (j : Instr) : (s.raise k j).draws = s.draws := rfl
@[simp] theorem raise_fresh (k : FaultKind) (j : Instr) : (s.raise k j).fresh = s.fresh := rfl

/-! ### `setVUpTo` -/

@[simp] theorem setVUpTo_v (x : Reg) (bs : List Byte) : (s.setVUpTo x bs).v = Vector.ofFn fun k : Fin 16 => if k ≤ x then bs.getD k.val 0 else s.v[k.val] := rfl
@[simp] theorem setVUpTo_pc (x : Reg) (bs : List Byte) : (s.setVUpTo x bs).pc = s.pc := rfl
@[simp] theorem setVUpTo_i (x : Reg) (bs : List Byte) : (s.setVUpTo x bs).i = s.i := rfl
@[simp] theorem setVUpTo_sp (x : Reg) (bs : List Byte) : (s.setVUpTo x bs).sp = s.sp := rfl
@[simp] theorem setVUpTo_stack (x : Reg) (bs : List Byte) : (s.setVUpTo x bs).stack = s.stack := rfl
@[simp] theorem setVUpTo_dt (x : Reg) (bs : List Byte) : (s.setVUpTo x bs).dt = s.dt := rfl
@[simp] theorem setVUpTo_st (x : Reg) (bs : List Byte) : (s.setVUpTo x bs).st = s.st := rfl
@[simp] theorem setVUpTo_fb (x : Reg) (bs : List Byte) : (s.setVUpTo x bs).fb = s.fb := rfl
@[simp] theorem setVUpTo_runState (x : Reg) (bs : List Byte) : (s.setVUpTo x bs).runState = s.runState := rfl
@[simp] theorem setVUpTo_fault (x : Reg) (bs : List Byte) : (s.setVUpTo x bs).fault = s.fault := rfl
@[simp] theorem setVUpTo_mem (x : Reg) (bs : List Byte) : (s.setVUpTo x bs).mem = s.mem := rfl
@[simp] theorem setVUpTo_frame (x : Reg) (bs : List Byte) : (s.setVUpTo x bs).frame = s.frame := rfl
@[simp] theorem setVUpTo_keyWaitBegin (x : Reg) (bs : List Byte) : (s.setVUpTo x bs).keyWaitBegin = s.keyWaitBegin := rfl
@[simp] theorem setVUpTo_ports (x : Reg) (bs : List Byte) : (s.setVUpTo x bs).ports = s.ports := rfl
@[simp] theorem setVUpTo_inbox (x : Reg) (bs : List Byte) : (s.setVUpTo x bs).inbox = s.inbox := rfl
@[simp] theorem setVUpTo_draws (x : Reg) (bs : List Byte) : (s.setVUpTo x bs).draws = s.draws := rfl
@[simp] theorem setVUpTo_fresh (x : Reg) (bs : List Byte) : (s.setVUpTo x bs).fresh = s.fresh := rfl

/-! ### `beginEvent` -/

@[simp] theorem beginEvent_v : (s.beginEvent).v = s.v := rfl
@[simp] theorem beginEvent_pc : (s.beginEvent).pc = s.pc := rfl
@[simp] theorem beginEvent_i : (s.beginEvent).i = s.i := rfl
@[simp] theorem beginEvent_sp : (s.beginEvent).sp = s.sp := rfl
@[simp] theorem beginEvent_stack : (s.beginEvent).stack = s.stack := rfl
@[simp] theorem beginEvent_dt : (s.beginEvent).dt = s.dt := rfl
@[simp] theorem beginEvent_st : (s.beginEvent).st = s.st := rfl
@[simp] theorem beginEvent_fb : (s.beginEvent).fb = s.fb := rfl
@[simp] theorem beginEvent_runState : (s.beginEvent).runState = s.runState := rfl
@[simp] theorem beginEvent_fault : (s.beginEvent).fault = s.fault := rfl
@[simp] theorem beginEvent_mem : (s.beginEvent).mem = s.mem := rfl
@[simp] theorem beginEvent_frame : (s.beginEvent).frame = false := rfl
@[simp] theorem beginEvent_keyWaitBegin : (s.beginEvent).keyWaitBegin = false := rfl
@[simp] theorem beginEvent_ports : (s.beginEvent).ports = s.ports := rfl
@[simp] theorem beginEvent_inbox : (s.beginEvent).inbox = s.inbox := rfl
@[simp] theorem beginEvent_draws : (s.beginEvent).draws = s.draws := rfl
@[simp] theorem beginEvent_fresh : (s.beginEvent).fresh = false := rfl

/-! ### `setResultThenFlag` -/

@[simp] theorem setResultThenFlag_v (x : Reg) (b : Byte) (f : Bool) : (s.setResultThenFlag x b f).v = (s.v.set x.val b).set 15 (flagByte f) := rfl
@[simp] theorem setResultThenFlag_pc (x : Reg) (b : Byte) (f : Bool) : (s.setResultThenFlag x b f).pc = s.pc := rfl
@[simp] theorem setResultThenFlag_i (x : Reg) (b : Byte) (f : Bool) : (s.setResultThenFlag x b f).i = s.i := rfl
@[simp] theorem setResultThenFlag_sp (x : Reg) (b : Byte) (f : Bool) : (s.setResultThenFlag x b f).sp = s.sp := rfl
@[simp] theorem setResultThenFlag_stack (x : Reg) (b : Byte) (f : Bool) : (s.setResultThenFlag x b f).stack = s.stack := rfl
@[simp] theorem setResultThenFlag_dt (x : Reg) (b : Byte) (f : Bool) : (s.setResultThenFlag x b f).dt = s.dt := rfl
@[simp] theorem setResultThenFlag_st (x : Reg) (b : Byte) (f : Bool) : (s.setResultThenFlag x b f).st = s.st := rfl
@[simp] theorem setResultThenFlag_fb (x : Reg) (b : Byte) (f : Bool) : (s.setResultThenFlag x b f).fb = s.fb := rfl
@[simp] theorem setResultThenFlag_runState (x : Reg) (b : Byte) (f : Bool) : (s.setResultThenFlag x b f).runState = s.runState := rfl
@[simp] theorem setResultThenFlag_fault (x : Reg) (b : Byte) (f : Bool) : (s.setResultThenFlag x b f).fault = s.fault := rfl
@[simp] theorem setResultThenFlag_mem (x : Reg) (b : Byte) (f : Bool) : (s.setResultThenFlag x b f).mem = s.mem := rfl
@[simp] theorem setResultThenFlag_frame (x : Reg) (b : Byte) (f : Bool) : (s.setResultThenFlag x b f).frame = s.frame := rfl
@[simp] theorem setResultThenFlag_keyWaitBegin (x : Reg) (b : Byte) (f : Bool) : (s.setResultThenFlag x b f).keyWaitBegin = s.keyWaitBegin := rfl
@[simp] theorem setResultThenFlag_ports (x : Reg) (b : Byte) (f : Bool) : (s.setResultThenFlag x b f).ports = s.ports := rfl
@[simp] theorem setResultThenFlag_inbox (x : Reg) (b : Byte) (f : Bool) : (s.setResultThenFlag x b f).inbox = s.inbox := rfl
@[simp] theorem setResultThenFlag_draws (x : Reg) (b : Byte) (f : Bool) : (s.setResultThenFlag x b f).draws = s.draws := rfl
@[simp] theorem setResultThenFlag_fresh (x : Reg) (b : Byte) (f : Bool) : (s.setResultThenFlag x b f).fresh = s.fresh := rfl

/-! ### `pointAtGlyph` -/

@[simp] theorem pointAtGlyph_v (x : Reg) (base : Nat) : (s.pointAtGlyph x base).v = s.v := rfl
@[simp] theorem pointAtGlyph_pc (x : Reg) (base : Nat) : (s.pointAtGlyph x base).pc = s.pc := rfl
@[simp] theorem pointAtGlyph_i (x : Reg) (base : Nat) : (s.pointAtGlyph x base).i = glyphAddr (s.getV x) base := rfl
@[simp] theorem pointAtGlyph_sp (x : Reg) (base : Nat) : (s.pointAtGlyph x base).sp = s.sp := rfl
@[simp] theorem pointAtGlyph_stack (x : Reg) (base : Nat) : (s.pointAtGlyph x base).stack = s.stack := rfl
@[simp] theorem pointAtGlyph_dt (x : Reg) (base : Nat) : (s.pointAtGlyph x base).dt = s.dt := rfl
@[simp] theorem pointAtGlyph_st (x : Reg) (base : Nat) : (s.pointAtGlyph x base).st = s.st := rfl
@[simp] theorem pointAtGlyph_fb (x : Reg) (base : Nat) : (s.pointAtGlyph x base).fb = s.fb := rfl
@[simp] theorem pointAtGlyph_runState (x : Reg) (base : Nat) : (s.pointAtGlyph x base).runState = s.runState := rfl
@[simp] theorem pointAtGlyph_fault (x : Reg) (base : Nat) : (s.pointAtGlyph x base).fault = s.fault := rfl
@[simp] theorem pointAtGlyph_mem (x : Reg) (base : Nat) : (s.pointAtGlyph x base).mem = s.mem := rfl
@[simp] theorem pointAtGlyph_frame (x : Reg) (base : Nat) : (s.pointAtGlyph x base).frame = s.frame := rfl
@[simp] theorem pointAtGlyph_keyWaitBegin (x : Reg) (base : Nat) : (s.pointAtGlyph x base).keyWaitBegin = s.keyWaitBegin := rfl
@[simp] theorem pointAtGlyph_ports (x : Reg) (base : Nat) : (s.pointAtGlyph x base).ports = s.ports := rfl
@[simp] theorem pointAtGlyph_inbox (x : Reg) (base : Nat) : (s.pointAtGlyph x base).inbox = s.inbox := rfl
@[simp] theorem pointAtGlyph_draws (x : Reg) (base : Nat) : (s.pointAtGlyph x base).draws = s.draws := rfl
@[simp] theorem pointAtGlyph_fresh (x : Reg) (base : Nat) : (s.pointAtGlyph x base).fresh = s.fresh := rfl

/-! ### `strobeFrame` -/

@[simp] theorem strobeFrame_v : (s.strobeFrame).v = s.v := rfl
@[simp] theorem strobeFrame_pc : (s.strobeFrame).pc = s.pc := rfl
@[simp] theorem strobeFrame_i : (s.strobeFrame).i = s.i := rfl
@[simp] theorem strobeFrame_sp : (s.strobeFrame).sp = s.sp := rfl
@[simp] theorem strobeFrame_stack : (s.strobeFrame).stack = s.stack := rfl
@[simp] theorem strobeFrame_dt : (s.strobeFrame).dt = s.dt := rfl
@[simp] theorem strobeFrame_st : (s.strobeFrame).st = s.st := rfl
@[simp] theorem strobeFrame_fb : (s.strobeFrame).fb = s.fb := rfl
@[simp] theorem strobeFrame_runState : (s.strobeFrame).runState = s.runState := rfl
@[simp] theorem strobeFrame_fault : (s.strobeFrame).fault = s.fault := rfl
@[simp] theorem strobeFrame_mem : (s.strobeFrame).mem = s.mem := rfl
@[simp] theorem strobeFrame_frame : (s.strobeFrame).frame = true := rfl
@[simp] theorem strobeFrame_keyWaitBegin : (s.strobeFrame).keyWaitBegin = s.keyWaitBegin := rfl
@[simp] theorem strobeFrame_ports : (s.strobeFrame).ports = s.ports := rfl
@[simp] theorem strobeFrame_inbox : (s.strobeFrame).inbox = s.inbox := rfl
@[simp] theorem strobeFrame_draws : (s.strobeFrame).draws = s.draws := rfl
@[simp] theorem strobeFrame_fresh : (s.strobeFrame).fresh = s.fresh := rfl

/-! ### `strobeKeyWaitBegin` -/

@[simp] theorem strobeKeyWaitBegin_v : (s.strobeKeyWaitBegin).v = s.v := rfl
@[simp] theorem strobeKeyWaitBegin_pc : (s.strobeKeyWaitBegin).pc = s.pc := rfl
@[simp] theorem strobeKeyWaitBegin_i : (s.strobeKeyWaitBegin).i = s.i := rfl
@[simp] theorem strobeKeyWaitBegin_sp : (s.strobeKeyWaitBegin).sp = s.sp := rfl
@[simp] theorem strobeKeyWaitBegin_stack : (s.strobeKeyWaitBegin).stack = s.stack := rfl
@[simp] theorem strobeKeyWaitBegin_dt : (s.strobeKeyWaitBegin).dt = s.dt := rfl
@[simp] theorem strobeKeyWaitBegin_st : (s.strobeKeyWaitBegin).st = s.st := rfl
@[simp] theorem strobeKeyWaitBegin_fb : (s.strobeKeyWaitBegin).fb = s.fb := rfl
@[simp] theorem strobeKeyWaitBegin_runState : (s.strobeKeyWaitBegin).runState = s.runState := rfl
@[simp] theorem strobeKeyWaitBegin_fault : (s.strobeKeyWaitBegin).fault = s.fault := rfl
@[simp] theorem strobeKeyWaitBegin_mem : (s.strobeKeyWaitBegin).mem = s.mem := rfl
@[simp] theorem strobeKeyWaitBegin_frame : (s.strobeKeyWaitBegin).frame = s.frame := rfl
@[simp] theorem strobeKeyWaitBegin_keyWaitBegin : (s.strobeKeyWaitBegin).keyWaitBegin = true := rfl
@[simp] theorem strobeKeyWaitBegin_ports : (s.strobeKeyWaitBegin).ports = s.ports := rfl
@[simp] theorem strobeKeyWaitBegin_inbox : (s.strobeKeyWaitBegin).inbox = s.inbox := rfl
@[simp] theorem strobeKeyWaitBegin_draws : (s.strobeKeyWaitBegin).draws = s.draws := rfl
@[simp] theorem strobeKeyWaitBegin_fresh : (s.strobeKeyWaitBegin).fresh = s.fresh := rfl

/-! ### `timerTick` -/

@[simp] theorem timerTick_v : (s.timerTick).v = s.v := rfl
@[simp] theorem timerTick_pc : (s.timerTick).pc = s.pc := rfl
@[simp] theorem timerTick_i : (s.timerTick).i = s.i := rfl
@[simp] theorem timerTick_sp : (s.timerTick).sp = s.sp := rfl
@[simp] theorem timerTick_stack : (s.timerTick).stack = s.stack := rfl
@[simp] theorem timerTick_dt : (s.timerTick).dt = tickDown s.dt := rfl
@[simp] theorem timerTick_st : (s.timerTick).st = tickDown s.st := rfl
@[simp] theorem timerTick_fb : (s.timerTick).fb = s.fb := rfl
@[simp] theorem timerTick_runState : (s.timerTick).runState = s.runState := rfl
@[simp] theorem timerTick_fault : (s.timerTick).fault = s.fault := rfl
@[simp] theorem timerTick_mem : (s.timerTick).mem = s.mem := rfl
@[simp] theorem timerTick_frame : (s.timerTick).frame = s.frame := rfl
@[simp] theorem timerTick_keyWaitBegin : (s.timerTick).keyWaitBegin = s.keyWaitBegin := rfl
@[simp] theorem timerTick_ports : (s.timerTick).ports = s.ports := rfl
@[simp] theorem timerTick_inbox : (s.timerTick).inbox = s.inbox := rfl
@[simp] theorem timerTick_draws : (s.timerTick).draws = s.draws := rfl
@[simp] theorem timerTick_fresh : (s.timerTick).fresh = s.fresh := rfl

/-! ### `resetEvent` -/

@[simp] theorem resetEvent_v (m : Memory) : (s.resetEvent m).v = Vector.replicate 16 0 := rfl
@[simp] theorem resetEvent_pc (m : Memory) : (s.resetEvent m).pc = 0x0200 := rfl
@[simp] theorem resetEvent_i (m : Memory) : (s.resetEvent m).i = 0 := rfl
@[simp] theorem resetEvent_sp (m : Memory) : (s.resetEvent m).sp = 0 := rfl
@[simp] theorem resetEvent_stack (m : Memory) : (s.resetEvent m).stack = Vector.replicate 16 0 := rfl
@[simp] theorem resetEvent_dt (m : Memory) : (s.resetEvent m).dt = 0 := rfl
@[simp] theorem resetEvent_st (m : Memory) : (s.resetEvent m).st = 0 := rfl
@[simp] theorem resetEvent_fb (m : Memory) : (s.resetEvent m).fb = Vector.replicate 32 0 := rfl
@[simp] theorem resetEvent_runState (m : Memory) : (s.resetEvent m).runState = .running := rfl
@[simp] theorem resetEvent_fault (m : Memory) : (s.resetEvent m).fault = none := rfl
@[simp] theorem resetEvent_mem (m : Memory) : (s.resetEvent m).mem = m := rfl
@[simp] theorem resetEvent_frame (m : Memory) : (s.resetEvent m).frame = false := rfl
@[simp] theorem resetEvent_keyWaitBegin (m : Memory) : (s.resetEvent m).keyWaitBegin = false := rfl
@[simp] theorem resetEvent_ports (m : Memory) : (s.resetEvent m).ports = Ports.idle := rfl
@[simp] theorem resetEvent_inbox (m : Memory) : (s.resetEvent m).inbox = s.inbox := rfl
@[simp] theorem resetEvent_draws (m : Memory) : (s.resetEvent m).draws = s.draws := rfl
@[simp] theorem resetEvent_fresh (m : Memory) : (s.resetEvent m).fresh = true := rfl

/-! ### Reading a register -/

/-- Reading a register after writing one. -/
@[simp] theorem getV_setV (x y : Reg) (b : Byte) :
    (s.setV x b).getV y = if x = y then b else s.getV y := by
  simp only [State.getV, setV_v, Vector.getElem_set, Fin.ext_iff]

/-- Reading a register after the block load of `Fx65`. -/
@[simp] theorem getV_setVUpTo (x y : Reg) (bs : List Byte) :
    (s.setVUpTo x bs).getV y = if y ≤ x then bs.getD y.val 0 else s.getV y := by
  simp [State.getV]

/-- Two states with the same register file read alike. -/
theorem getV_congr {s t : State} (h : t.v = s.v) (x : Reg) : t.getV x = s.getV x := by
  simp only [State.getV, h]

@[simp] theorem getV_skipIf (c : Bool) (r : Reg) : (s.skipIf c).getV r = s.getV r := rfl
@[simp] theorem getV_jumpTo (a : Word) (r : Reg) : (s.jumpTo a).getV r = s.getV r := rfl
@[simp] theorem getV_advancePc (r : Reg) : (s.advancePc).getV r = s.getV r := rfl
@[simp] theorem getV_enterFault (k : FaultKind) (a : Word) (w : Option Word) (r : Reg) : (s.enterFault k a w).getV r = s.getV r := rfl
@[simp] theorem getV_raise (k : FaultKind) (j : Instr) (r : Reg) : (s.raise k j).getV r = s.getV r := rfl
@[simp] theorem getV_beginEvent (r : Reg) : (s.beginEvent).getV r = s.getV r := rfl
@[simp] theorem getV_pointAtGlyph (x : Reg) (base : Nat) (r : Reg) : (s.pointAtGlyph x base).getV r = s.getV r := rfl
@[simp] theorem getV_strobeFrame (r : Reg) : (s.strobeFrame).getV r = s.getV r := rfl
@[simp] theorem getV_strobeKeyWaitBegin (r : Reg) : (s.strobeKeyWaitBegin).getV r = s.getV r := rfl
@[simp] theorem getV_timerTick (r : Reg) : (s.timerTick).getV r = s.getV r := rfl

end Sys2Proof.Machine
end

