-- ==== Sys2Proof/Laws/Memory.lean ====
section
/-! SUPPORT. The laws of memory: a read after a write, what a write leaves alone, and that every memory operation
keeps the canonical form (R40 to R42, R45, R53). -/

namespace Sys2Proof.Machine

/-- Every address the list names is above `a`. -/
def Memory.above (a : Nat) (m : Memory) : Prop := ∀ c ∈ m, a < c.1

@[simp] theorem lookup_nil (a : Nat) : Memory.lookup [] a = none := rfl

theorem lookup_cons (c : Host.Cell) (m : Memory) (a : Nat) :
    Memory.lookup (c :: m) a = if c.1 = a then some c.2 else Memory.lookup m a := rfl

/-- A list all of whose addresses are above `a` does not name `a`. -/
theorem lookup_of_above {a b : Nat} (hab : a ≤ b) : ∀ {m : Memory}, Memory.above b m → m.lookup a = none
  | [], _ => rfl
  | c :: m, h => by
    have hc : b < c.1 := h c (by simp)
    rw [lookup_cons, if_neg (by omega)]
    exact lookup_of_above hab (fun d hd => h d (by simp [hd]))

theorem wf_cons_iff (c : Host.Cell) (m : Memory) :
    Memory.wf (c :: m) = true ↔
      c.1 < 4096 ∧ c.2 ≠ resetByte c.1 ∧ Memory.above c.1 m ∧ Memory.wf m = true := by
  simp only [Memory.wf, Memory.above, Bool.and_eq_true, decide_eq_true_eq, List.all_eq_true,
    Config.memSize, and_assoc]

/-- An empty list is canonical: it is memory at its reset contents. -/
@[simp] theorem wf_nil : Memory.wf [] = true := rfl

@[simp] theorem read_nil (a : Nat) : Memory.read [] a = resetByte a := rfl

/-- Reading another address than the one in front. -/
theorem read_cons_of_ne {c : Host.Cell} {m : Memory} {a : Nat} (h : c.1 ≠ a) :
    Memory.read (c :: m) a = Memory.read m a := by simp [Memory.read, lookup_cons, h]

theorem read_cons_same (a : Nat) (b : Byte) (m : Memory) : Memory.read ((a, b) :: m) a = b := by
  simp [Memory.read, lookup_cons]

/-- Putting a cell in front gives its address its byte, when the list does not name the address. -/
theorem read_memCons_same {a : Nat} {b : Byte} {m : Memory} (h : Memory.above a m) :
    (Memory.cons a b m).read a = b := by
  unfold Memory.cons
  split
  · next hb => rw [Memory.read, lookup_of_above le_rfl h, hb]; rfl
  · exact read_cons_same a b m

theorem read_memCons_of_ne {a c : Nat} {b : Byte} {m : Memory} (h : a ≠ c) :
    (Memory.cons a b m).read c = m.read c := by
  unfold Memory.cons
  split
  · rfl
  · exact read_cons_of_ne h

/-- A write leaves every other address alone, whatever the list. -/
theorem read_write_of_ne {a c : Nat} (b : Byte) (h : a ≠ c) :
    ∀ m : Memory, (m.write a b).read c = m.read c
  | [] => read_memCons_of_ne h
  | d :: m => by
    unfold Memory.write
    split
    · exact read_memCons_of_ne h
    · split
      · next hd => rw [read_memCons_of_ne h, read_cons_of_ne (by omega)]
      · rw [Memory.read, Memory.read, lookup_cons, lookup_cons]
        split
        · rfl
        · exact read_write_of_ne b h m

/-- A read after a write to the same address gives the byte written. -/
theorem read_write_same {a : Nat} (b : Byte) :
    ∀ {m : Memory}, m.wf = true → (m.write a b).read a = b
  | [], _ => read_memCons_same (fun _ h => by simp at h)
  | d :: m, hm => by
    obtain ⟨_, _, habove, hwf⟩ := (wf_cons_iff d m).1 hm
    unfold Memory.write
    split
    · next hlt =>
      refine read_memCons_same fun c hc => ?_
      rcases List.mem_cons.1 hc with rfl | hc
      · exact hlt
      · exact lt_trans hlt (habove c hc)
    · split
      · next heq => exact read_memCons_same (heq ▸ habove)
      · rw [read_cons_of_ne (by omega)]
        exact read_write_same b hwf

theorem read_write {m : Memory} (hm : m.wf = true) (a c : Nat) (b : Byte) :
    (m.write a b).read c = if a = c then b else m.read c := by
  split
  · next h => exact h ▸ read_write_same b hm
  · next h => exact read_write_of_ne b h m

theorem above_memCons {a c : Nat} {b : Byte} {m : Memory} (hc : c < a) (h : Memory.above c m) :
    Memory.above c (Memory.cons a b m) := by
  unfold Memory.cons
  split
  · exact h
  · exact fun d hd => (List.mem_cons.1 hd).elim (fun e => e ▸ hc) (h d)

theorem wf_memCons {a : Nat} {b : Byte} {m : Memory} (ha : a < 4096) (h : Memory.above a m)
    (hm : m.wf = true) : (Memory.cons a b m).wf = true := by
  unfold Memory.cons
  split
  · exact hm
  · next hb => exact (wf_cons_iff (a, b) m).2 ⟨ha, hb, h, hm⟩

theorem above_write {a c : Nat} {b : Byte} (hc : c < a) :
    ∀ {m : Memory}, Memory.above c m → Memory.above c (m.write a b)
  | [], h => above_memCons hc h
  | d :: m, h => by
    have hd : c < d.1 := h d (by simp)
    have hm : Memory.above c m := fun e he => h e (by simp [he])
    unfold Memory.write
    split
    · exact above_memCons hc h
    · split
      · exact above_memCons hc hm
      · exact fun e he => (List.mem_cons.1 he).elim (fun q => q ▸ hd) (above_write hc hm e)

/-- A write inside memory keeps the canonical form. -/
theorem wf_write {a : Nat} (b : Byte) (ha : a < 4096) :
    ∀ {m : Memory}, m.wf = true → (m.write a b).wf = true
  | [], _ => wf_memCons ha (fun _ h => by simp at h) rfl
  | d :: m, hm => by
    obtain ⟨hd, hb, habove, hwf⟩ := (wf_cons_iff d m).1 hm
    unfold Memory.write
    split
    · next hlt =>
      refine wf_memCons ha (fun c hc => ?_) hm
      rcases List.mem_cons.1 hc with rfl | hc
      · exact hlt
      · exact lt_trans hlt (habove c hc)
    · split
      · next heq => exact wf_memCons ha (heq ▸ habove) hwf
      · exact (wf_cons_iff _ _).2 ⟨hd, hb, above_write (by omega) habove, wf_write b ha hwf⟩

/-- Writing bytes leaves every address outside them alone. -/
theorem read_writeList_outside {c : Nat} :
    ∀ (bs : List Byte) (m : Memory) (a : Nat), ¬(a ≤ c ∧ c < a + bs.length) →
      (m.writeList a bs).read c = m.read c
  | [], _, _, _ => rfl
  | b :: bs, m, a, h => by
    rw [List.length_cons] at h
    rw [Memory.writeList, read_writeList_outside bs _ (a + 1) (by omega),
      read_write_of_ne b (by omega)]

/-- Writing bytes inside memory keeps the canonical form. -/
theorem wf_writeList :
    ∀ (bs : List Byte) {m : Memory} (a : Nat), a + bs.length ≤ 4096 → m.wf = true →
      (m.writeList a bs).wf = true
  | [], _, _, _, h => h
  | b :: bs, m, a, h, hm => by
    rw [List.length_cons] at h
    exact wf_writeList bs (a + 1) (by omega) (wf_write b (by omega) hm)

/-- Each byte written is read back at its place. -/
theorem read_writeList_inside :
    ∀ (bs : List Byte) {m : Memory} (a k : Nat) (hk : k < bs.length), a + bs.length ≤ 4096 →
      m.wf = true → (m.writeList a bs).read (a + k) = bs[k]
  | b :: bs, m, a, 0, _, h, hm => by
    rw [List.length_cons] at h
    rw [Memory.writeList, read_writeList_outside bs _ (a + 1) (by omega)]
    exact read_write_same b hm
  | b :: bs, m, a, k + 1, hk, h, hm => by
    rw [List.length_cons] at h hk
    have := read_writeList_inside bs (m := m.write a b) (a + 1) k (by omega) (by omega)
      (wf_write b (by omega) hm)
    rw [show a + 1 + k = a + (k + 1) by omega] at this
    simpa [Memory.writeList] using this

@[simp] theorem readList_length (m : Memory) (a n : Nat) : (m.readList a n).length = n := by
  simp [Memory.readList]

@[simp] theorem readList_getD (m : Memory) (a n k : Nat) (d : Byte) (hk : k < n) :
    (m.readList a n).getD k d = m.read (a + k) := by
  simp [Memory.readList, List.getD_eq_getElem?_getD, hk]

/-! Memory after `Reset` under any parameters (R5, R47 to R49). -/

/-- The byte of `resetByte` by place: the font table where it reaches, `MEM_INIT` elsewhere. -/
theorem resetByte_eq (a base : Nat) (table : List Byte) (init : Byte) :
    resetByte a base table init =
      if h : base ≤ a ∧ a - base < table.length then table[a - base]'h.2 else init := by
  unfold resetByte
  by_cases hlt : a < base
  · rw [if_pos hlt, dif_neg (by omega)]
  · rw [if_neg hlt]
    split
    · next h => rw [List.getD_eq_getElem _ _ h.2]
    · next h => rw [List.getD_eq_default _ _ (by omega)]

/-- Addresses rising from `n` are all above any address below `n`. -/
theorem above_filter_range' (f : Nat → Byte) (p : Host.Cell → Bool) {a n : Nat} (k : Nat) (h : a < n) :
    Memory.above a (((List.range' n k).map fun b => (b, f b)).filter p) := by
  intro c hc
  obtain ⟨b, hb, rfl⟩ := List.mem_map.1 (List.mem_filter.1 hc).1
  exact lt_of_lt_of_le h (List.mem_range'_1.1 hb).1

/-- The cells of a run of addresses in which `f` differs from the default contents are canonical. -/
theorem wf_differences (f : Nat → Byte) :
    ∀ k n : Nat, n + k ≤ 4096 →
      Memory.wf (((List.range' n k).map fun b => (b, f b)).filter fun c => c.2 ≠ resetByte c.1) = true
  | 0, _, _ => rfl
  | k + 1, n, h => by
    have ih := wf_differences f k (n + 1) (by omega)
    rw [List.range'_succ, List.map_cons, List.filter_cons]
    split
    · next hb =>
      exact (wf_cons_iff _ _).2
        ⟨by dsimp only; omega, by simpa using hb, above_filter_range' f _ k (Nat.lt_succ_self n), ih⟩
    · exact ih

/-- Memory after `Reset` is canonical, whatever the parameters. -/
theorem wf_resetMemory (base : Nat) (table : List Byte) (init : Byte) :
    (resetMemory base table init).wf = true := by
  rw [resetMemory, List.range_eq_range']
  exact wf_differences _ _ _ (by decide)

/-- At the defaults it lists nothing: it is the memory of `State.reset`. -/
@[simp] theorem resetMemory_default : resetMemory = State.reset.mem := by
  simp [resetMemory, State.reset]

/-- The range check of R58, as arithmetic. -/
theorem spanInMemory_iff (a n : Nat) : spanInMemory a n = true ↔ n = 0 ∨ a + n ≤ 4096 := by
  simp only [spanInMemory, Bool.or_eq_true, decide_eq_true_eq, Config.memSize]; omega

end Sys2Proof.Machine
end

