-- ==== Sys2Proof/Laws/Ops.lean ====
section
/-! SUPPORT. One lemma for each shared operation that says what it can do: the range-checked accesses, the call
stack, the fetch, and the end of an instruction that may fault. Proofs cite these and do not unfold. -/

namespace Sys2Proof.Machine

/-- The end of an instruction is always a next state (R87, R176). -/
theorem orRaise_ok (s t : State) (i : Instr) : s.orRaise i (.ok t) = .next t := rfl

theorem orRaise_error (s : State) (i : Instr) (k : FaultKind) :
    s.orRaise i (.error k) = .next (s.raise k i) := rfl

/-- A store inside memory writes the bytes; any other writes nothing and is `AddressOutOfRange` (R58). -/
theorem storeBytes_eq (s : State) (a : Nat) (bs : List Byte) (hbs : bs ≠ []) :
    s.storeBytes a bs = if a + bs.length ≤ 4096 then .ok { s with mem := s.mem.writeList a bs }
      else .error .addressOutOfRange := by
  have hlen : bs.length ≠ 0 := by simpa using hbs
  simp only [State.storeBytes, spanInMemory_iff, hlen, false_or]

/-- A load of at least one byte inside memory reads the bytes; any other is `AddressOutOfRange` (R58). -/
theorem loadBytes_eq (s : State) (a n : Nat) :
    s.loadBytes a n = if n = 0 ∨ a + n ≤ 4096 then .ok (s.mem.readList a n)
      else .error .addressOutOfRange := by
  simp only [State.loadBytes, spanInMemory_iff]

theorem loadBytes_zero (s : State) (a : Nat) : s.loadBytes a 0 = .ok [] := by
  simp [loadBytes_eq, Memory.readList]

/-- A fetch succeeds exactly up to 0xFFE, and reads big-endian (R41, R81). -/
theorem memRead2_eq (s : State) (a : Nat) :
    s.memRead2 a = if a + 1 < 4096 then .ok (wordOfBytes (s.mem.read a) (s.mem.read (a + 1)))
      else .error .addressOutOfRange := by
  unfold State.memRead2
  split
  · next h => rw [if_neg (by simp only [Config.memSize] at h; omega)]
  · next h => rw [if_pos (by simp only [Config.memSize] at h; omega)]

/-- A push on a stack that is not full (R19). -/
theorem push_ok (s : State) (a : Word) (h : s.sp.val < 16) :
    s.push a = .ok { s with stack := s.stack.set s.sp.val a, sp := ⟨s.sp.val + 1, by omega⟩ } := by
  simp only [State.push, h, dite_true]

/-- A push on a full stack (R19, R172). -/
theorem push_full (s : State) (a : Word) (h : s.sp.val = 16) : s.push a = .error .stackOverflow := by
  simp only [State.push, h, Nat.lt_irrefl, dite_false]

/-- A pop of a stack that is not empty (R19); the slot keeps its value (R18). -/
theorem pop_ok (s : State) (h : s.sp.val ≠ 0) :
    s.pop = .ok (s.stack[s.sp.val - 1], { s with sp := ⟨s.sp.val - 1, by omega⟩ }) := by
  simp only [State.pop, h, if_false]

/-- A pop of an empty stack (R19, R173). -/
theorem pop_empty (s : State) (h : s.sp.val = 0) : s.pop = .error .stackUnderflow := by
  simp only [State.pop, h, if_true]

/-- A block of registers has `x + 1` bytes (R144). -/
@[simp] theorem blockRegs_length (s : State) (x : Reg) : (s.blockRegs x).length = x.val + 1 := by
  simp [State.blockRegs]

/-- Byte `k` of a block is `V[k]` (R144). -/
theorem blockRegs_getElem (s : State) (x : Reg) (k : Nat) (hk : k < (s.blockRegs x).length) :
    (s.blockRegs x)[k] = s.getV ⟨k, by rw [blockRegs_length] at hk; omega⟩ := by
  simp [State.blockRegs, State.getV]

/-- The digits of `Fx33` are never an empty list (R143 "0 gives [0]"). -/
theorem decimalDigits_ne_nil (v : Byte) : decimalDigits v ≠ [] := by
  unfold decimalDigits; dsimp only; split
  · simp
  · split <;> simp

/-- How many digits `Fx33` writes (R143). -/
theorem decimalDigits_length (v : Byte) :
    (decimalDigits v).length = if v.toNat ≥ 100 then 3 else if v.toNat ≥ 10 then 2 else 1 := by
  unfold decimalDigits; dsimp only; split
  · rfl
  · split <;> rfl

/-- A result and a flag, read back: the flag wins in `VF` (R86). -/
@[simp] theorem getV_setResultThenFlag (s : State) (x r : Reg) (b : Byte) (f : Bool) :
    (s.setResultThenFlag x b f).getV r = if 15 = r then flagByte f else if x = r then b else s.getV r := by
  simp only [State.setResultThenFlag, getV_setV]

/-- Writing a result and a flag changes nothing but the register file. -/
theorem setResultThenFlag_eq (s : State) (x : Reg) (b : Byte) (f : Bool) :
    s.setResultThenFlag x b f = { s with v := (s.setResultThenFlag x b f).v } := rfl

/-! The instructions that may fault, each as its two cases. -/

theorem execCall_ok (nnn : Addr12) (s : State) (h : s.sp.val < 16) :
    execCall nnn s = .next { s with
      stack := s.stack.set s.sp.val s.pc, sp := ⟨s.sp.val + 1, by omega⟩, pc := zext16 nnn } := by
  rw [execCall, push_ok s _ h]; rfl

theorem execCall_full (nnn : Addr12) (s : State) (h : s.sp.val = 16) :
    execCall nnn s = .next (s.raise .stackOverflow (.call nnn)) := by
  rw [execCall, push_full s _ h]; rfl

theorem execRet_ok (s : State) (h : s.sp.val ≠ 0) :
    execRet s = .next { s with sp := ⟨s.sp.val - 1, by omega⟩, pc := s.stack[s.sp.val - 1] } := by
  rw [execRet, pop_ok s h]; rfl

theorem execRet_empty (s : State) (h : s.sp.val = 0) :
    execRet s = .next (s.raise .stackUnderflow .ret) := by
  rw [execRet, pop_empty s h]; rfl

theorem execLdB_ok (x : Reg) (s : State)
    (h : s.i.toNat + (decimalDigits (s.getV x)).length ≤ 4096) :
    execLdB x s = .next { s with mem := s.mem.writeList s.i.toNat (decimalDigits (s.getV x)) } := by
  rw [execLdB, storeBytes_eq _ _ _ (decimalDigits_ne_nil _), State.effAddr, Nat.add_zero, if_pos h]; rfl

theorem execLdB_fault (x : Reg) (s : State)
    (h : ¬s.i.toNat + (decimalDigits (s.getV x)).length ≤ 4096) :
    execLdB x s = .next (s.raise .addressOutOfRange (.ldB x)) := by
  rw [execLdB, storeBytes_eq _ _ _ (decimalDigits_ne_nil _), State.effAddr, Nat.add_zero, if_neg h]; rfl

theorem blockRegs_ne_nil (s : State) (x : Reg) : s.blockRegs x ≠ [] := by
  have := blockRegs_length s x
  intro h; rw [h] at this; simp at this

theorem execLdMemVx_ok (x : Reg) (s : State) (h : s.i.toNat + x.val < 4096) :
    execLdMemVx x s = .next { s with
      mem := s.mem.writeList s.i.toNat (s.blockRegs x), i := blockEnd Params.blockXferStep s.i x } := by
  rw [execLdMemVx, State.storeBlock, storeBytes_eq _ _ _ (blockRegs_ne_nil s x), State.effAddr,
    Nat.add_zero, blockRegs_length, if_pos (by omega)]; rfl

theorem execLdMemVx_fault (x : Reg) (s : State) (h : ¬s.i.toNat + x.val < 4096) :
    execLdMemVx x s = .next (s.raise .addressOutOfRange (.ldMemVx x)) := by
  rw [execLdMemVx, State.storeBlock, storeBytes_eq _ _ _ (blockRegs_ne_nil s x), State.effAddr,
    Nat.add_zero, blockRegs_length, if_neg (by omega)]; rfl

theorem execLdVxMem_ok (x : Reg) (s : State) (h : s.i.toNat + x.val < 4096) :
    execLdVxMem x s = .next { s.setVUpTo x (s.mem.readList s.i.toNat (x.val + 1)) with
      i := blockEnd Params.blockXferStep s.i x } := by
  rw [execLdVxMem, State.loadBlock, loadBytes_eq, State.effAddr, Nat.add_zero,
    if_pos (Or.inr (by omega))]; rfl

theorem execLdVxMem_fault (x : Reg) (s : State) (h : ¬s.i.toNat + x.val < 4096) :
    execLdVxMem x s = .next (s.raise .addressOutOfRange (.ldVxMem x)) := by
  rw [execLdVxMem, State.loadBlock, loadBytes_eq, State.effAddr, Nat.add_zero,
    if_neg (by omega)]; rfl

/-- The state `Dxyn` leaves when its sprite lies in memory (R151). -/
def drawn (x y : Reg) (n : Nibble) (s : State) : State :=
  let d := drawSprite s.fb (s.getV x).toNat (s.getV y).toNat (s.mem.readList s.i.toNat n.toNat)
  (({ s with fb := d.1 }).setV 15 (flagByte d.2)).strobeFrame

/-! Drawing changes the framebuffer, `VF` and the strobe, and no other field (R151). -/

@[simp] theorem drawn_pc (x y : Reg) (n : Nibble) (s : State) : (drawn x y n s).pc = s.pc := rfl
@[simp] theorem drawn_i (x y : Reg) (n : Nibble) (s : State) : (drawn x y n s).i = s.i := rfl
@[simp] theorem drawn_sp (x y : Reg) (n : Nibble) (s : State) : (drawn x y n s).sp = s.sp := rfl
@[simp] theorem drawn_stack (x y : Reg) (n : Nibble) (s : State) : (drawn x y n s).stack = s.stack := rfl
@[simp] theorem drawn_dt (x y : Reg) (n : Nibble) (s : State) : (drawn x y n s).dt = s.dt := rfl
@[simp] theorem drawn_st (x y : Reg) (n : Nibble) (s : State) : (drawn x y n s).st = s.st := rfl
@[simp] theorem drawn_runState (x y : Reg) (n : Nibble) (s : State) : (drawn x y n s).runState = s.runState := rfl
@[simp] theorem drawn_fault (x y : Reg) (n : Nibble) (s : State) : (drawn x y n s).fault = s.fault := rfl
@[simp] theorem drawn_mem (x y : Reg) (n : Nibble) (s : State) : (drawn x y n s).mem = s.mem := rfl
@[simp] theorem drawn_keyWaitBegin (x y : Reg) (n : Nibble) (s : State) : (drawn x y n s).keyWaitBegin = s.keyWaitBegin := rfl
@[simp] theorem drawn_ports (x y : Reg) (n : Nibble) (s : State) : (drawn x y n s).ports = s.ports := rfl
@[simp] theorem drawn_inbox (x y : Reg) (n : Nibble) (s : State) : (drawn x y n s).inbox = s.inbox := rfl
@[simp] theorem drawn_draws (x y : Reg) (n : Nibble) (s : State) : (drawn x y n s).draws = s.draws := rfl
@[simp] theorem drawn_fresh (x y : Reg) (n : Nibble) (s : State) : (drawn x y n s).fresh = s.fresh := rfl
@[simp] theorem drawn_frame (x y : Reg) (n : Nibble) (s : State) : (drawn x y n s).frame = true := rfl

/-- What a register reads as after a draw: `VF` is the collision flag. -/
@[simp] theorem getV_drawn (x y r : Reg) (n : Nibble) (s : State) :
    (drawn x y n s).getV r = if 15 = r then
      flagByte (drawSprite s.fb (s.getV x).toNat (s.getV y).toNat (s.mem.readList s.i.toNat n.toNat)).2
      else s.getV r := by
  rw [drawn, getV_strobeFrame, getV_setV]; rfl

theorem execDrw_ok (x y : Reg) (n : Nibble) (s : State) (h : n = 0 ∨ s.i.toNat + n.toNat ≤ 4096) :
    execDrw x y n s = .next (drawn x y n s) := by
  have h' : n.toNat = 0 ∨ s.i.toNat + n.toNat ≤ 4096 := h.imp_left (fun e => by simp [e])
  rw [execDrw, loadBytes_eq, State.effAddr, Nat.add_zero, if_pos h']; rfl

theorem execDrw_fault (x y : Reg) (n : Nibble) (s : State)
    (h : ¬(n = 0 ∨ s.i.toNat + n.toNat ≤ 4096)) :
    execDrw x y n s = .next (s.raise .addressOutOfRange (.drw x y n)) := by
  have h' : ¬(n.toNat = 0 ∨ s.i.toNat + n.toNat ≤ 4096) := by
    rintro (e | e)
    · exact h (Or.inl (BitVec.eq_of_toNat_eq (by simpa using e)))
    · exact h (Or.inr e)
  rw [execDrw, loadBytes_eq, State.effAddr, Nat.add_zero, if_neg h']; rfl

end Sys2Proof.Machine
end

