-- ==== Sys2Proof/Laws/Display.lean ====
section
/-! SUPPORT. The pixels of a drawn sprite (R151, R152): what one toggle does, which pixels a sprite lights, that no
two of its pixels coincide (R151c), and what the loops do to a pixel and to the collision flag. -/

namespace Sys2Proof.Machine

/-- Toggling a pixel flips it and no other. -/
theorem pixel_toggle (fb : Framebuffer) (px qx : Fin 64) (py qy : Fin 32) :
    (fb.toggle px py).pixel qx qy = xor (fb.pixel qx qy) (decide (px = qx ∧ py = qy)) := by
  unfold Framebuffer.toggle Framebuffer.pixel
  rw [Vector.getElem_set]
  by_cases hy : py.val = qy.val
  · have hbit : (1#64 <<< px.val).getLsbD qx.val = decide (px.val = qx.val) := by
      simp only [BitVec.getLsbD_shiftLeft, BitVec.getLsbD_one]
      have := px.isLt; have := qx.isLt
      rw [Bool.eq_iff_iff]; simp; omega
    simp only [hy, if_true, BitVec.getLsbD_xor, hbit, Fin.ext_iff, and_true]
  · simp [hy, Fin.ext_iff]

/-- The pixels of the cleared framebuffer (R150). -/
@[simp] theorem pixel_clear (px : Fin 64) (py : Fin 32) :
    Framebuffer.pixel (Vector.replicate 32 0) px py = false := by
  simp [Framebuffer.pixel]

/-- Two framebuffers with the same pixels are the same. -/
theorem framebuffer_ext {f g : Framebuffer} (h : ∀ px py, f.pixel px py = g.pixel px py) : f = g := by
  apply Vector.ext; intro i hi
  apply BitVec.eq_of_getLsbD_eq; intro j hj
  exact h ⟨j, hj⟩ ⟨i, hi⟩

/-- The pixels a sprite lights (R152): column `c` of row `r` lands at ((vx + c) mod 64, (vy + r) mod 32). -/
theorem mem_litPixels (vx : Nat) (q : Fin 64 × Fin 32) :
    ∀ (rows : List Byte) (vy : Nat), q ∈ litPixels vx vy rows ↔
      ∃ r c, ∃ h : r < rows.length, c < 8 ∧ rows[r].getLsbD (7 - c) = true ∧
        q = (Fin.ofNat 64 (vx + c), Fin.ofNat 32 (vy + r))
  | [], vy => by simp [litPixels]
  | row :: rows, vy => by
    rw [litPixels, List.mem_append, mem_litPixels vx q rows (vy + 1)]
    constructor
    · rintro (h | ⟨r, c, hr, hc, hb, hq⟩)
      · simp only [litColumns, List.mem_map, List.mem_filter, List.mem_range] at h
        obtain ⟨c, ⟨hc, hb⟩, hq⟩ := h
        exact ⟨0, c, by simp, hc, hb, hq.symm⟩
      · refine ⟨r + 1, c, by simpa using hr, hc, by simpa using hb, ?_⟩
        rw [hq, show vy + 1 + r = vy + (r + 1) by omega]
    · rintro ⟨r, c, hr, hc, hb, hq⟩
      cases r with
      | zero =>
        left
        simp only [litColumns, List.mem_map, List.mem_filter, List.mem_range]
        exact ⟨c, ⟨hc, hb⟩, hq.symm⟩
      | succ r =>
        right
        refine ⟨r, c, by simpa using hr, hc, by simpa using hb, ?_⟩
        rw [hq, show vy + 1 + r = vy + (r + 1) by omega]

/-- "No two sprite pixels of one instruction land on the same framebuffer pixel" (R151c). -/
theorem litPixels_nodup (vx : Nat) :
    ∀ (rows : List Byte) (vy : Nat), rows.length ≤ 32 → (litPixels vx vy rows).Nodup
  | [], _, _ => by simp [litPixels]
  | row :: rows, vy, h => by
    rw [List.length_cons] at h
    rw [litPixels, List.nodup_append]
    refine ⟨?_, litPixels_nodup vx rows (vy + 1) (by omega), ?_⟩
    · refine List.Nodup.map_on ?_ (List.Nodup.filter _ List.nodup_range)
      intro c hc d hd he
      simp only [litColumns, List.mem_filter, List.mem_range] at hc hd
      simp only [Prod.mk.injEq, Fin.ext_iff, Fin.ofNat, and_true] at he
      omega
    · rintro p hp q hq rfl
      simp only [List.mem_map] at hp
      obtain ⟨c, _, rfl⟩ := hp
      obtain ⟨r, d, hr, _, _, he⟩ := (mem_litPixels vx _ rows (vy + 1)).1 hq
      simp only [Prod.mk.injEq, Fin.ext_iff, Fin.ofNat] at he
      omega

/-- The loops over pixels that do not coincide: each is flipped, and there is a collision when one was set. -/
theorem foldl_drawPixel (ps : List (Fin 64 × Fin 32)) (hps : ps.Nodup) :
    ∀ (fb : Framebuffer) (c : Bool),
      (∀ q : Fin 64 × Fin 32, (ps.foldl drawPixel (fb, c)).1.pixel q.1 q.2 =
        xor (fb.pixel q.1 q.2) (decide (q ∈ ps))) ∧
      (ps.foldl drawPixel (fb, c)).2 = (c || ps.any fun p => fb.pixel p.1 p.2) := by
  induction ps with
  | nil => intro fb c; simp
  | cons p ps ih =>
    intro fb c
    obtain ⟨hp, hnd⟩ := List.nodup_cons.1 hps
    obtain ⟨h1, h2⟩ := ih hnd (fb.toggle p.1 p.2) (c || fb.pixel p.1 p.2)
    constructor
    · intro q
      rw [List.foldl_cons, drawPixel, h1 q, pixel_toggle]
      by_cases hq : q = p
      · subst hq; simp [hp]
      · have hne : ¬(p.1 = q.1 ∧ p.2 = q.2) := fun h => hq (Prod.ext h.1 h.2).symm
        simp [hne, hq]
    · rw [List.foldl_cons, drawPixel, h2, List.any_cons, Bool.or_assoc]
      have : (ps.any fun r => (fb.toggle p.1 p.2).pixel r.1 r.2) = ps.any fun r => fb.pixel r.1 r.2 := by
        rw [Bool.eq_iff_iff, List.any_eq_true, List.any_eq_true]
        refine exists_congr fun r => and_congr_right fun hr => ?_
        have hne : ¬(p.1 = r.1 ∧ p.2 = r.2) := fun h => hp (Prod.ext h.1 h.2 ▸ hr)
        rw [pixel_toggle]; simp [hne]
      rw [this]

/-- A drawn sprite, pixel by pixel. -/
theorem pixel_drawSprite (fb : Framebuffer) (vx vy : Nat) (rows : List Byte) (h : rows.length ≤ 32)
    (px : Fin 64) (py : Fin 32) :
    (drawSprite fb vx vy rows).1.pixel px py =
      xor (fb.pixel px py) (decide ((px, py) ∈ litPixels vx vy rows)) :=
  (foldl_drawPixel _ (litPixels_nodup vx rows vy h) fb false).1 (px, py)

/-- A drawn sprite's collision flag. -/
theorem collision_drawSprite (fb : Framebuffer) (vx vy : Nat) (rows : List Byte) (h : rows.length ≤ 32) :
    (drawSprite fb vx vy rows).2 = (litPixels vx vy rows).any fun p => fb.pixel p.1 p.2 := by
  have := (foldl_drawPixel _ (litPixels_nodup vx rows vy h) fb false).2
  simpa [drawSprite] using this

end Sys2Proof.Machine
end

