-- ==== Sys2Proof/Laws/Exec.lean ====
section
/-! SUPPORT. Everything an instruction can do, said once (40_fetch_decode_execute.md R84, R87): it completes with the
effect of its rule, or it raises its one possible kind of fault. Proofs about all instructions are case analyses
over this lemma. -/

namespace Sys2Proof.Machine

/-- `t` is what `i` leaves when it completes in `s`. Results that a frame does not look at are left open. -/
def Completes (s t : State) : Instr → Prop
  | .cls => t = { s with fb := Vector.replicate 32 0 }
  | .ret => ∃ _ : s.sp.val ≠ 0, t = { s with sp := ⟨s.sp.val - 1, by omega⟩, pc := s.stack[s.sp.val - 1] }
  | .jp nnn => t = s.jumpTo (zext16 nnn)
  | .call nnn => ∃ _ : s.sp.val < 16, t = { s with
      stack := s.stack.set s.sp.val s.pc, sp := ⟨s.sp.val + 1, by omega⟩, pc := zext16 nnn }
  | .jpV0 nnn => t = s.jumpTo (s.jumpV0Target nnn)
  | .seImm x kk => t = s.skipIf (s.getV x == kk)
  | .sneImm x kk => t = s.skipIf (s.getV x != kk)
  | .seReg x y => t = s.skipIf (s.getV x == s.getV y)
  | .sneReg x y => t = s.skipIf (s.getV x != s.getV y)
  | .skp x => t = s.skipIf (s.keyDown (s.getV x) s.ports.keyOorSkp)
  | .sknp x => t = s.skipIf (!s.keyDown (s.getV x) s.ports.keyOorSknp)
  | .ldImm x _ | .addImm x _ | .ldReg x _ | .orReg x _ | .andReg x _ | .xorReg x _ | .rnd x _ | .ldVxDt x =>
    ∃ b, t = s.setV x b
  | .addReg x _ | .subReg x _ | .subnReg x _ | .shr x _ | .shl x _ => ∃ b f, t = s.setResultThenFlag x b f
  | .ldI _ | .addI _ | .ldF _ => ∃ a, t = { s with i := a }
  | .drw x y n => t = drawn x y n s
  | .ldVxK x => t = ({ s with runState := .awaitingKey x }).strobeKeyWaitBegin
  | .ldDtVx x => t = { s with dt := s.getV x }
  | .ldStVx x => t = { s with st := s.getV x }
  | .ldB x => s.i.toNat + (decimalDigits (s.getV x)).length ≤ 4096 ∧
      t = { s with mem := s.mem.writeList s.i.toNat (decimalDigits (s.getV x)) }
  | .ldMemVx x => s.i.toNat + x.val < 4096 ∧ t = { s with
      mem := s.mem.writeList s.i.toNat (s.blockRegs x), i := blockEnd Params.blockXferStep s.i x }
  | .ldVxMem x => s.i.toNat + x.val < 4096 ∧
      t = { s.setVUpTo x (s.mem.readList s.i.toNat (x.val + 1)) with i := blockEnd Params.blockXferStep s.i x }

/-- An instruction that answers a next state has completed, or has raised its kind of fault (R87, R178). -/
theorem exec_cases {i : Instr} {s t : State} (h : exec i s = .next t) :
    (∃ kind, executeFault i = some kind ∧ t = s.raise kind i) ∨ Completes s t i := by
  cases i with
  | ret =>
    by_cases hs : s.sp.val = 0
    · exact .inl ⟨_, rfl, Host.Outcome.next.inj (h.symm.trans (execRet_empty s hs))⟩
    · exact .inr ⟨hs, Host.Outcome.next.inj (h.symm.trans (execRet_ok s hs))⟩
  | call nnn =>
    by_cases hs : s.sp.val < 16
    · exact .inr ⟨hs, Host.Outcome.next.inj (h.symm.trans (execCall_ok nnn s hs))⟩
    · exact .inl ⟨_, rfl, Host.Outcome.next.inj (h.symm.trans (execCall_full nnn s (by omega)))⟩
  | drw x y n =>
    by_cases hs : n = 0 ∨ s.i.toNat + n.toNat ≤ 4096
    · exact .inr (Host.Outcome.next.inj (h.symm.trans (execDrw_ok x y n s hs)))
    · exact .inl ⟨_, rfl, Host.Outcome.next.inj (h.symm.trans (execDrw_fault x y n s hs))⟩
  | ldB x =>
    by_cases hs : s.i.toNat + (decimalDigits (s.getV x)).length ≤ 4096
    · exact .inr ⟨hs, Host.Outcome.next.inj (h.symm.trans (execLdB_ok x s hs))⟩
    · exact .inl ⟨_, rfl, Host.Outcome.next.inj (h.symm.trans (execLdB_fault x s hs))⟩
  | ldMemVx x =>
    by_cases hs : s.i.toNat + x.val < 4096
    · exact .inr ⟨hs, Host.Outcome.next.inj (h.symm.trans (execLdMemVx_ok x s hs))⟩
    · exact .inl ⟨_, rfl, Host.Outcome.next.inj (h.symm.trans (execLdMemVx_fault x s hs))⟩
  | ldVxMem x =>
    by_cases hs : s.i.toNat + x.val < 4096
    · exact .inr ⟨hs, Host.Outcome.next.inj (h.symm.trans (execLdVxMem_ok x s hs))⟩
    · exact .inl ⟨_, rfl, Host.Outcome.next.inj (h.symm.trans (execLdVxMem_fault x s hs))⟩
  | ldImm | addImm | ldReg | orReg | andReg | xorReg | rnd | ldVxDt | ldI | addI | ldF =>
    exact .inr ⟨_, (Host.Outcome.next.inj h).symm⟩
  | addReg | subReg | subnReg | shr | shl => exact .inr ⟨_, _, (Host.Outcome.next.inj h).symm⟩
  | _ => exact .inr (Host.Outcome.next.inj h).symm

/-- The execute stage always answers a next state (log 8). -/
theorem exec_next (i : Instr) (s : State) : ∃ t, exec i s = .next t := by
  cases i with
  | ret | call | drw | ldB | ldMemVx | ldVxMem =>
    simp only [exec, execRet, execCall, execDrw, execLdB, execLdMemVx, execLdVxMem]
    unfold State.orRaise; split <;> exact ⟨_, rfl⟩
  | _ => exact ⟨_, rfl⟩

end Sys2Proof.Machine
end

