-- ==== Sys2Proof/Laws/PerInstr.lean ====
section
/-! SUPPORT. What holds of every instruction as syntax, one lemma per constructor: its encoding selects its own row
of the opcode map of R64, and its operands fit their fields. -/

namespace Sys2Proof.Laws.SelectsItsRow

/-- The word of `i` selects the row R64 gives `i` (`w AND mask = match`), and the operands of `i` fit. -/
def Statement (i : Instr) : Prop := i.row.selects (encode i) = true ∧ i.wellFormed = true

theorem cls : Statement .cls := ⟨by decide, rfl⟩

theorem ret : Statement .ret := ⟨by decide, rfl⟩

theorem jp (nnn : Addr12) : Statement (.jp nnn) := by
  refine ⟨?_, by simp [Instr.wellFormed]; try omega⟩
  simp only [OpcodeRow.selects, Instr.row, encode, wordNNN_and_F000]; decide

theorem call (nnn : Addr12) : Statement (.call nnn) := by
  refine ⟨?_, by simp [Instr.wellFormed]; try omega⟩
  simp only [OpcodeRow.selects, Instr.row, encode, wordNNN_and_F000]; decide

theorem seImm (x : Reg) (kk : Byte) : Statement (.seImm x kk) := by
  refine ⟨?_, by simp [Instr.wellFormed]; try omega⟩
  simp only [OpcodeRow.selects, Instr.row, encode, wordXKK_and_F000]; decide

theorem sneImm (x : Reg) (kk : Byte) : Statement (.sneImm x kk) := by
  refine ⟨?_, by simp [Instr.wellFormed]; try omega⟩
  simp only [OpcodeRow.selects, Instr.row, encode, wordXKK_and_F000]; decide

theorem seReg (x y : Reg) : Statement (.seReg x y) := by
  refine ⟨?_, by simp [Instr.wellFormed]; try omega⟩
  simp only [OpcodeRow.selects, Instr.row, encode, wordXYN_and_F00F]; decide

theorem ldImm (x : Reg) (kk : Byte) : Statement (.ldImm x kk) := by
  refine ⟨?_, by simp [Instr.wellFormed]; try omega⟩
  simp only [OpcodeRow.selects, Instr.row, encode, wordXKK_and_F000]; decide

theorem addImm (x : Reg) (kk : Byte) : Statement (.addImm x kk) := by
  refine ⟨?_, by simp [Instr.wellFormed]; try omega⟩
  simp only [OpcodeRow.selects, Instr.row, encode, wordXKK_and_F000]; decide

theorem ldReg (x y : Reg) : Statement (.ldReg x y) := by
  refine ⟨?_, by simp [Instr.wellFormed]; try omega⟩
  simp only [OpcodeRow.selects, Instr.row, encode, wordXYN_and_F00F]; decide

theorem orReg (x y : Reg) : Statement (.orReg x y) := by
  refine ⟨?_, by simp [Instr.wellFormed]; try omega⟩
  simp only [OpcodeRow.selects, Instr.row, encode, wordXYN_and_F00F]; decide

theorem andReg (x y : Reg) : Statement (.andReg x y) := by
  refine ⟨?_, by simp [Instr.wellFormed]; try omega⟩
  simp only [OpcodeRow.selects, Instr.row, encode, wordXYN_and_F00F]; decide

theorem xorReg (x y : Reg) : Statement (.xorReg x y) := by
  refine ⟨?_, by simp [Instr.wellFormed]; try omega⟩
  simp only [OpcodeRow.selects, Instr.row, encode, wordXYN_and_F00F]; decide

theorem addReg (x y : Reg) : Statement (.addReg x y) := by
  refine ⟨?_, by simp [Instr.wellFormed]; try omega⟩
  simp only [OpcodeRow.selects, Instr.row, encode, wordXYN_and_F00F]; decide

theorem subReg (x y : Reg) : Statement (.subReg x y) := by
  refine ⟨?_, by simp [Instr.wellFormed]; try omega⟩
  simp only [OpcodeRow.selects, Instr.row, encode, wordXYN_and_F00F]; decide

theorem shr (x y : Reg) : Statement (.shr x y) := by
  refine ⟨?_, by simp [Instr.wellFormed]; try omega⟩
  simp only [OpcodeRow.selects, Instr.row, encode, wordXYN_and_F00F]; decide

theorem subnReg (x y : Reg) : Statement (.subnReg x y) := by
  refine ⟨?_, by simp [Instr.wellFormed]; try omega⟩
  simp only [OpcodeRow.selects, Instr.row, encode, wordXYN_and_F00F]; decide

theorem shl (x y : Reg) : Statement (.shl x y) := by
  refine ⟨?_, by simp [Instr.wellFormed]; try omega⟩
  simp only [OpcodeRow.selects, Instr.row, encode, wordXYN_and_F00F]; decide

theorem sneReg (x y : Reg) : Statement (.sneReg x y) := by
  refine ⟨?_, by simp [Instr.wellFormed]; try omega⟩
  simp only [OpcodeRow.selects, Instr.row, encode, wordXYN_and_F00F]; decide

theorem ldI (nnn : Addr12) : Statement (.ldI nnn) := by
  refine ⟨?_, by simp [Instr.wellFormed]; try omega⟩
  simp only [OpcodeRow.selects, Instr.row, encode, wordNNN_and_F000]; decide

theorem jpV0 (nnn : Addr12) : Statement (.jpV0 nnn) := by
  refine ⟨?_, by simp [Instr.wellFormed]; try omega⟩
  simp only [OpcodeRow.selects, Instr.row, encode, wordNNN_and_F000]; decide

theorem rnd (x : Reg) (kk : Byte) : Statement (.rnd x kk) := by
  refine ⟨?_, by simp [Instr.wellFormed]; try omega⟩
  simp only [OpcodeRow.selects, Instr.row, encode, wordXKK_and_F000]; decide

theorem drw (x y : Reg) (n : Nibble) : Statement (.drw x y n) := by
  refine ⟨?_, by simp [Instr.wellFormed]; try omega⟩
  simp only [OpcodeRow.selects, Instr.row, encode, wordXYN_and_F000]; decide

theorem skp (x : Reg) : Statement (.skp x) := by
  refine ⟨?_, by simp [Instr.wellFormed]; try omega⟩
  simp only [OpcodeRow.selects, Instr.row, encode, wordXKK_and_F0FF]; decide

theorem sknp (x : Reg) : Statement (.sknp x) := by
  refine ⟨?_, by simp [Instr.wellFormed]; try omega⟩
  simp only [OpcodeRow.selects, Instr.row, encode, wordXKK_and_F0FF]; decide

theorem ldVxDt (x : Reg) : Statement (.ldVxDt x) := by
  refine ⟨?_, by simp [Instr.wellFormed]; try omega⟩
  simp only [OpcodeRow.selects, Instr.row, encode, wordXKK_and_F0FF]; decide

theorem ldVxK (x : Reg) : Statement (.ldVxK x) := by
  refine ⟨?_, by simp [Instr.wellFormed]; try omega⟩
  simp only [OpcodeRow.selects, Instr.row, encode, wordXKK_and_F0FF]; decide

theorem ldDtVx (x : Reg) : Statement (.ldDtVx x) := by
  refine ⟨?_, by simp [Instr.wellFormed]; try omega⟩
  simp only [OpcodeRow.selects, Instr.row, encode, wordXKK_and_F0FF]; decide

theorem ldStVx (x : Reg) : Statement (.ldStVx x) := by
  refine ⟨?_, by simp [Instr.wellFormed]; try omega⟩
  simp only [OpcodeRow.selects, Instr.row, encode, wordXKK_and_F0FF]; decide

theorem addI (x : Reg) : Statement (.addI x) := by
  refine ⟨?_, by simp [Instr.wellFormed]; try omega⟩
  simp only [OpcodeRow.selects, Instr.row, encode, wordXKK_and_F0FF]; decide

theorem ldF (x : Reg) : Statement (.ldF x) := by
  refine ⟨?_, by simp [Instr.wellFormed]; try omega⟩
  simp only [OpcodeRow.selects, Instr.row, encode, wordXKK_and_F0FF]; decide

theorem ldB (x : Reg) : Statement (.ldB x) := by
  refine ⟨?_, by simp [Instr.wellFormed]; try omega⟩
  simp only [OpcodeRow.selects, Instr.row, encode, wordXKK_and_F0FF]; decide

theorem ldMemVx (x : Reg) : Statement (.ldMemVx x) := by
  refine ⟨?_, by simp [Instr.wellFormed]; try omega⟩
  simp only [OpcodeRow.selects, Instr.row, encode, wordXKK_and_F0FF]; decide

theorem ldVxMem (x : Reg) : Statement (.ldVxMem x) := by
  refine ⟨?_, by simp [Instr.wellFormed]; try omega⟩
  simp only [OpcodeRow.selects, Instr.row, encode, wordXKK_and_F0FF]; decide

end Sys2Proof.Laws.SelectsItsRow
end

