-- ==== Sys2Proof/Laws/Step.lean ====
section
/-! SUPPORT. What a step can do, by event (R30, R31), and what a `Step` in `Running` does with the word it fetches
(R80 to R83). -/

namespace Sys2Proof.Machine

/-- Taking the next event changes the inbox and the counter only. -/
theorem takeEvent_cases (s : State) :
    ∃ e ib d, s.takeEvent = (e, { s with inbox := ib, draws := d }) := by
  unfold State.takeEvent; split <;> exact ⟨_, _, _, rfl⟩

theorem nextIsStep_cases {s s' : State} {p : Ports} (h : NextIsStep s p s') :
    ∃ ib d, s' = { s with inbox := ib, draws := d } := by
  obtain ⟨e, ib, d, he⟩ := takeEvent_cases s
  exact ⟨ib, d, congrArg Prod.snd (h.symm.trans he)⟩

/-- A step takes the next event and handles it. -/
theorem step_of_takeEvent {s u : State} {e : HostEvent} (h : s.takeEvent = (e, u)) :
    step s = handleEvent e u := by rw [step, h]

/-- The events of an inbox that is not empty. -/
theorem step_of_inbox {s : State} {e : HostEvent} {rest : List HostEvent} (h : s.inbox = e :: rest) :
    step s = handleEvent e { s with inbox := rest } :=
  step_of_takeEvent (by simp only [State.takeEvent, h])

/-- `Load` as the first event after `Reset`, and at any other time (R50). -/
theorem loadEvent_fresh {s : State} (bytes : List Byte) (h : s.fresh = true) :
    loadEvent bytes s = .next (s.beginEvent.loadImage bytes) := by rw [loadEvent, if_pos h]

theorem loadEvent_late {s : State} (bytes : List Byte) (h : s.fresh = false) :
    loadEvent bytes s = .refused .loadNotAfterReset := by simp [loadEvent, h]

/-- When a program image fits (R50). -/
theorem imageFits_iff (bytes : List Byte) : imageFits bytes = true ↔ bytes.length + 0x200 ≤ 4096 := by
  simp [imageFits, Config.progBase, Config.memSize]

/-- `KeyPress` by run state (R163, D22). -/
theorem keyPress_awaiting {s : State} {r : Reg} (k : Nibble) (h : s.runState = .awaitingKey r) :
    s.keyPress k = { s.setV r (zext8 k) with runState := .running } := by simp only [State.keyPress, h]

theorem keyPress_other {s : State} (k : Nibble) (h : s.runState = .running ∨ s.runState = .faulted) :
    s.keyPress k = s := by rcases h with h | h <;> simp only [State.keyPress, h]

/-- A `Step` by run state (R80, R88). -/
theorem stepEvent_running {s : State} (p : Ports) (h : s.runState = .running) :
    stepEvent p s = ({ s.beginEvent with ports := p }).cycle := by simp only [stepEvent, h]

theorem stepEvent_other {s : State} (p : Ports) (h : s.runState ≠ .running) :
    stepEvent p s = .next s.beginEvent := by
  unfold stepEvent; split
  · contradiction
  · rfl
  · rfl

/-- The three ways of an instruction cycle: a fetch beyond memory (R81), a word that is no instruction (R83), and
an instruction (R80). -/
theorem cycle_beyond {s : State} (h : 4096 ≤ s.pc.toNat + 1) :
    s.cycle = .next (s.enterFault .addressOutOfRange s.pc none) := by
  simp only [State.cycle, memRead2_eq, Nat.not_lt.2 h, if_false]

theorem cycle_word {s : State} {w : Word} (h : Fetches s w) : s.cycle = s.advancePc.dispatchWord s.pc w := by
  simp only [State.cycle, memRead2_eq, h.1, if_true, h.2]; rfl

theorem dispatchWord_ok {s : State} {pc0 w : Word} {i : Instr} (h : decode w = .ok i) :
    s.dispatchWord pc0 w = exec i s := by simp only [State.dispatchWord, h]

theorem dispatchWord_error {s : State} {pc0 w : Word} {e : DecodeError} (h : decode w = .error e) :
    s.dispatchWord pc0 w = .next (s.enterFault .unimplementedOpcode pc0 (some w)) := by
  simp only [State.dispatchWord, h]

end Sys2Proof.Machine
end

