-- ==== Sys2Proof/Tests/Slice0.lean ====
section
/-! SUPPORT. The model's own tests. Expected results are those of the spec: words written out from R62 and R64, and the
vectors of 95_test_vectors.md, each named in its comment. At the end, for every statement that has hypotheses,
states and operands that meet them, clause by clause at the edges of their ranges. -/

namespace Sys2Proof.Tests

open Sys2Proof.Machine

/-! ## Helpers -/

/-- `o` is a next state of which `p` holds. -/
def after (o : Host.Outcome State Fault Refusal) (p : State → Bool) : Bool :=
  match o with
  | .next t => p t
  | .fault _ => false
  | .refused _ => false

/-- The state after "Reset + Load" of the one word `w` (95_test_vectors.md), a `Step` with idle inputs next. -/
def ready (w : Word) : State :=
  { State.reset with
    mem := Memory.writeList [] 0x200 [highByte w, lowByte w]
    inbox := [.step Ports.idle]
    fresh := false }

/-- Registers set to values. -/
def regs (rs : List (Reg × Byte)) (s : State) : State := rs.foldl (fun s r => s.setV r.1 r.2) s

/-- Bytes put in memory. -/
def bytes (a : Nat) (bs : List Byte) (s : State) : State := { s with mem := s.mem.writeList a bs }

/-- One step, and what holds after it. -/
def runs (s : State) (p : State → Bool) : Bool := after (step s) p

/-! ## Well-formedness: every check refuses an ill-formed term -/

/-- The illegal words of R67, one for each group, and the neighbours of legal words (DEC3 to DEC19). -/
theorem test_illegal_group0 : legalWord 0x0000#16 = false ∧ legalWord 0x01E0#16 = false ∧ legalWord 0x00E1#16 = false := by
  decide
theorem test_illegal_group5 : legalWord 0x5121#16 = false := by decide
theorem test_illegal_group8 : legalWord 0x8128#16 = false ∧ legalWord 0x812D#16 = false ∧ legalWord 0x812F#16 = false := by
  decide
theorem test_illegal_group9 : legalWord 0x9ABF#16 = false := by decide
theorem test_illegal_groupE : legalWord 0xE19F#16 = false ∧ legalWord 0xE1A0#16 = false := by decide
theorem test_illegal_groupF : legalWord 0xF11F#16 = false ∧ legalWord 0xF154#16 = false ∧ legalWord 0xF185#16 = false := by
  decide

/-- A program image of 3585 bytes is refused, one of 3584 is not (T13). -/
theorem test_image_too_long : imageFits (List.replicate 3585 0) = false := by
  rw [imageFits, List.length_replicate]; decide
theorem test_image_longest : imageFits (List.replicate 3584 0) = true := by
  rw [imageFits, List.length_replicate]; decide

/-- The checks of the memory list: out of order, an address twice, a cell that holds what it reads as unlisted, an
address beyond memory. -/
theorem test_memory_unsorted : Memory.wf [(0x301, 1), (0x300, 1)] = false := by decide
theorem test_memory_twice : Memory.wf [(0x300, 1), (0x300, 2)] = false := by decide
theorem test_memory_redundant : Memory.wf [(0x050, 0xF0)] = false := by decide
theorem test_memory_beyond : Memory.wf [(4096, 1)] = false := by decide

/-- The decoder refuses a byte string shorter than a word by name. -/
theorem test_decode_truncated : decodeBytes [0x12] = .error (.truncated 1) := by decide

/-! ## Decoding: every constructor, by a word written out bit by bit from its format (R62, R64) -/

theorem test_decode_cls : decode (0b0000#4 ++ 0b0000#4 ++ 0b1110#4 ++ 0b0000#4) = .ok (.cls) := by decide
theorem test_decode_ret : decode (0b0000#4 ++ 0b0000#4 ++ 0b1110#4 ++ 0b1110#4) = .ok (.ret) := by decide
theorem test_decode_jp : decode (0b0001#4 ++ 0b1010#4 ++ 0b1011#4 ++ 0b1100#4) = .ok (.jp 0xABC#12) := by decide
theorem test_decode_call : decode (0b0010#4 ++ 0b0011#4 ++ 0b0000#4 ++ 0b0000#4) = .ok (.call 0x300#12) := by decide
theorem test_decode_seImm : decode (0b0011#4 ++ 0b1010#4 ++ 0b0000#4 ++ 0b0101#4) = .ok (.seImm 10 0x05#8) := by decide
theorem test_decode_sneImm : decode (0b0100#4 ++ 0b1010#4 ++ 0b0000#4 ++ 0b0101#4) = .ok (.sneImm 10 0x05#8) := by decide
theorem test_decode_seReg : decode (0b0101#4 ++ 0b0001#4 ++ 0b0010#4 ++ 0b0000#4) = .ok (.seReg 1 2) := by decide
theorem test_decode_ldImm : decode (0b0110#4 ++ 0b1111#4 ++ 0b1010#4 ++ 0b1011#4) = .ok (.ldImm 15 0xAB#8) := by decide
theorem test_decode_addImm : decode (0b0111#4 ++ 0b0001#4 ++ 0b0000#4 ++ 0b0010#4) = .ok (.addImm 1 0x02#8) := by decide
theorem test_decode_ldReg : decode (0b1000#4 ++ 0b0001#4 ++ 0b0010#4 ++ 0b0000#4) = .ok (.ldReg 1 2) := by decide
theorem test_decode_orReg : decode (0b1000#4 ++ 0b0001#4 ++ 0b0010#4 ++ 0b0001#4) = .ok (.orReg 1 2) := by decide
theorem test_decode_andReg : decode (0b1000#4 ++ 0b0001#4 ++ 0b0010#4 ++ 0b0010#4) = .ok (.andReg 1 2) := by decide
theorem test_decode_xorReg : decode (0b1000#4 ++ 0b0001#4 ++ 0b0010#4 ++ 0b0011#4) = .ok (.xorReg 1 2) := by decide
theorem test_decode_addReg : decode (0b1000#4 ++ 0b1111#4 ++ 0b0001#4 ++ 0b0100#4) = .ok (.addReg 15 1) := by decide
theorem test_decode_subReg : decode (0b1000#4 ++ 0b0000#4 ++ 0b0001#4 ++ 0b0101#4) = .ok (.subReg 0 1) := by decide
theorem test_decode_shr : decode (0b1000#4 ++ 0b0001#4 ++ 0b0000#4 ++ 0b0110#4) = .ok (.shr 1 0) := by decide
theorem test_decode_subnReg : decode (0b1000#4 ++ 0b0001#4 ++ 0b0010#4 ++ 0b0111#4) = .ok (.subnReg 1 2) := by decide
theorem test_decode_shl : decode (0b1000#4 ++ 0b0001#4 ++ 0b0010#4 ++ 0b1110#4) = .ok (.shl 1 2) := by decide
theorem test_decode_sneReg : decode (0b1001#4 ++ 0b1010#4 ++ 0b1011#4 ++ 0b0000#4) = .ok (.sneReg 10 11) := by decide
theorem test_decode_ldI : decode (0b1010#4 ++ 0b0010#4 ++ 0b1111#4 ++ 0b0000#4) = .ok (.ldI 0x2F0#12) := by decide
theorem test_decode_jpV0 : decode (0b1011#4 ++ 0b0011#4 ++ 0b0000#4 ++ 0b0000#4) = .ok (.jpV0 0x300#12) := by decide
theorem test_decode_rnd : decode (0b1100#4 ++ 0b0011#4 ++ 0b0000#4 ++ 0b1111#4) = .ok (.rnd 3 0x0F#8) := by decide
theorem test_decode_drw : decode (0b1101#4 ++ 0b0000#4 ++ 0b0001#4 ++ 0b1111#4) = .ok (.drw 0 1 0xF#4) := by decide
theorem test_decode_skp : decode (0b1110#4 ++ 0b0011#4 ++ 0b1001#4 ++ 0b1110#4) = .ok (.skp 3) := by decide
theorem test_decode_sknp : decode (0b1110#4 ++ 0b0011#4 ++ 0b1010#4 ++ 0b0001#4) = .ok (.sknp 3) := by decide
theorem test_decode_ldVxDt : decode (0b1111#4 ++ 0b0010#4 ++ 0b0000#4 ++ 0b0111#4) = .ok (.ldVxDt 2) := by decide
theorem test_decode_ldVxK : decode (0b1111#4 ++ 0b0011#4 ++ 0b0000#4 ++ 0b1010#4) = .ok (.ldVxK 3) := by decide
theorem test_decode_ldDtVx : decode (0b1111#4 ++ 0b0001#4 ++ 0b0001#4 ++ 0b0101#4) = .ok (.ldDtVx 1) := by decide
theorem test_decode_ldStVx : decode (0b1111#4 ++ 0b0100#4 ++ 0b0001#4 ++ 0b1000#4) = .ok (.ldStVx 4) := by decide
theorem test_decode_addI : decode (0b1111#4 ++ 0b0001#4 ++ 0b0001#4 ++ 0b1110#4) = .ok (.addI 1) := by decide
theorem test_decode_ldF : decode (0b1111#4 ++ 0b0000#4 ++ 0b0010#4 ++ 0b1001#4) = .ok (.ldF 0) := by decide
theorem test_decode_ldB : decode (0b1111#4 ++ 0b0000#4 ++ 0b0011#4 ++ 0b0011#4) = .ok (.ldB 0) := by decide
theorem test_decode_ldMemVx : decode (0b1111#4 ++ 0b0010#4 ++ 0b0101#4 ++ 0b0101#4) = .ok (.ldMemVx 2) := by decide
theorem test_decode_ldVxMem : decode (0b1111#4 ++ 0b1111#4 ++ 0b0110#4 ++ 0b0101#4) = .ok (.ldVxMem 15) := by decide

/-- The bytes of a word in memory, the high byte first (R43), and the host's numbering of bits. -/
theorem test_decode_big_endian : decodeBytes [0x61, 0x2A, 0xFF] = .ok (.ldImm 1 0x2A#8, [0xFF]) := by decide
theorem test_decodeTableWord : decodeTableWord 16 0x8014 = some (.addReg 0 1) := by decide
theorem test_decodeTableWord_illegal : decodeTableWord 16 0x8018 = none := by decide
theorem test_withFetchWord :
    after (step (State.reset.withFetchWord 16 0x612A)) (fun t => t.getV 1 == 0x2A#8 && t.pc == 0x202#16) = true := by
  decide

/-! ## Fetch -/

/-- FET2: an odd `pc` is fetched from. -/
theorem test_fetch_odd :
    runs (bytes 0x201 [0x62, 0x07] { ready 0 with pc := 0x201 }) (fun t => t.getV 2 == 7#8 && t.pc == 0x203#16) = true := by
  decide
/-- FET3: the last address an instruction can be fetched from. -/
theorem test_fetch_last :
    runs (bytes 0xFFE [0x60, 0x01] { ready 0 with pc := 0xFFE }) (fun t => t.getV 0 == 1#8 && t.pc == 0x1000#16) = true := by
  decide
/-- FET5: the fetch fault; no opcode, `pc` stays. -/
theorem test_fetch_fault :
    runs { ready 0 with pc := 0xFFF } (fun t =>
      t.fault == some { kind := .addressOutOfRange, pc := 0xFFF, opcode := none } && t.pc == 0xFFF#16 &&
        t.runState == .faulted) = true := by decide
/-- LR4: the word 0x0000 of an empty program. -/
theorem test_undefined_word :
    runs (ready 0) (fun t =>
      t.fault == some { kind := .unimplementedOpcode, pc := 0x200, opcode := some 0 } && t.pc == 0x202#16) = true := by
  decide
/-- FET7: a `Step` while waiting fetches nothing. -/
theorem test_step_waiting :
    runs { ready 0x612A with runState := .awaitingKey 3 } (fun t =>
      t.pc == 0x200#16 && t.runState == .awaitingKey 3 && t.getV 1 == 0#8) = true := by decide
/-- R170: the codes of the faults (D15). -/
theorem test_fault_codes : [FaultKind.loadError, .stackOverflow, .stackUnderflow, .unimplementedOpcode,
    .addressOutOfRange].map (fun k => k.code) = [1, 2, 3, 4, 5] := by decide
/-- R170: the host reads code 3 after a return on an empty stack, or what another list of codes says (D15). -/
theorem test_fault_code_read : runs (ready 0x00EE) (fun t =>
    t.faultCode == some 3 && t.faultCode #v[10, 20, 30, 40, 50] == some 30) = true := by decide

/-! ## Control flow (vectors CF) -/

/-- CF1. -/
theorem test_jp : runs (ready 0x1ABC) (fun t => t.pc == 0xABC#16) = true := by decide
/-- CF3, CF5. -/
theorem test_call :
    runs (ready 0x2300) (fun t => t.stack[0] == 0x202#16 && t.sp == 1 && t.pc == 0x300#16) = true := by decide
theorem test_call_overflow :
    runs { ready 0x2300 with sp := 16 } (fun t =>
      t.fault == some { kind := .stackOverflow, pc := 0x200, opcode := some 0x2300 } && t.sp == 16 &&
        t.pc == 0x202#16 && t.stack == Vector.replicate 16 0) = true := by decide
/-- CF4, CF6. -/
theorem test_ret :
    runs { ready 0x00EE with sp := 1, stack := State.reset.stack.set 0 0x0ABC } (fun t =>
      t.pc == 0xABC#16 && t.sp == 0 && t.stack[0] == 0xABC#16) = true := by decide
theorem test_ret_underflow :
    runs (ready 0x00EE) (fun t =>
      t.fault == some { kind := .stackUnderflow, pc := 0x200, opcode := some 0x00EE } && t.pc == 0x202#16) = true := by
  decide
/-- CF9 (not reduced to 12 bits), CF11 (the register is always `V0`). -/
theorem test_jpV0_wide : runs (regs [(0, 0xFF)] (ready 0xBFFF)) (fun t => t.pc == 0x10FE#16) = true := by decide
theorem test_jpV0_register :
    runs (regs [(0, 5), (2, 0x40)] (ready 0xB234)) (fun t => t.pc == 0x239#16) = true := by decide

/-! ## Skips (vectors SK) -/

/-- SK1, SK2. -/
theorem test_seImm : runs (regs [(1, 0x2A)] (ready 0x312A)) (fun t => t.pc == 0x204#16) = true := by decide
theorem test_seImm_not : runs (regs [(1, 0x2B)] (ready 0x312A)) (fun t => t.pc == 0x202#16) = true := by decide
/-- SK4, SK3. -/
theorem test_sneImm : runs (regs [(1, 0x2B)] (ready 0x412A)) (fun t => t.pc == 0x204#16) = true := by decide
theorem test_sneImm_not : runs (regs [(1, 0x2A)] (ready 0x412A)) (fun t => t.pc == 0x202#16) = true := by decide
/-- SK5, SK6. -/
theorem test_seReg : runs (regs [(1, 7), (2, 7)] (ready 0x5120)) (fun t => t.pc == 0x204#16) = true := by decide
theorem test_seReg_not : runs (regs [(1, 7), (2, 8)] (ready 0x5120)) (fun t => t.pc == 0x202#16) = true := by decide
/-- SK8, SK10. -/
theorem test_sneReg : runs (regs [(1, 7), (2, 8)] (ready 0x9120)) (fun t => t.pc == 0x204#16) = true := by decide
theorem test_sneReg_same : runs (regs [(1, 7)] (ready 0x9110)) (fun t => t.pc == 0x202#16) = true := by decide

/-! ## Load, ALU, random (vectors ALU) -/

/-- ALU31, and R120's corner case `x` = 15. -/
theorem test_ldImm : runs (ready 0x6FAB) (fun t => t.getV 15 == 0xAB#8) = true := by decide
/-- R121's example: the sum wraps and `VF` is not written. -/
theorem test_addImm : runs (regs [(1, 0xFF), (15, 0x55)] (ready 0x7102)) (fun t =>
    t.getV 1 == 1#8 && t.getV 15 == 0x55#8) = true := by decide
/-- ALU30. -/
theorem test_ldReg : runs (regs [(1, 0x11), (2, 0x99)] (ready 0x8120)) (fun t =>
    t.getV 1 == 0x99#8 && t.getV 2 == 0x99#8) = true := by decide
/-- ALU26, ALU27, ALU28. -/
theorem test_orReg : runs (regs [(1, 0xF0), (2, 0x0F), (15, 0x55)] (ready 0x8121)) (fun t =>
    t.getV 1 == 0xFF#8 && t.getV 15 == 0x55#8) = true := by decide
theorem test_andReg : runs (regs [(1, 0xF0), (2, 0x3C), (15, 0x55)] (ready 0x8122)) (fun t =>
    t.getV 1 == 0x30#8 && t.getV 15 == 0x55#8) = true := by decide
theorem test_xorReg : runs (regs [(1, 0xFF), (2, 0x0F), (15, 0x55)] (ready 0x8123)) (fun t =>
    t.getV 1 == 0xF0#8 && t.getV 15 == 0x55#8) = true := by decide
/-- ALU8 (the old `VF` is an operand), ALU6 (the flag wins). -/
theorem test_addReg : runs (regs [(0, 0xFF), (15, 1)] (ready 0x80F4)) (fun t =>
    t.getV 0 == 0#8 && t.getV 15 == 1#8) = true := by decide
theorem test_addReg_vf : runs (regs [(1, 0x20), (15, 0xF0)] (ready 0x8F14)) (fun t => t.getV 15 == 1#8) = true := by
  decide
/-- ALU11, ALU12. -/
theorem test_subReg : runs (regs [(0, 3), (1, 5)] (ready 0x8015)) (fun t =>
    t.getV 0 == 0xFE#8 && t.getV 15 == 0#8) = true := by decide
theorem test_subReg_equal : runs (regs [(0, 7), (1, 7), (15, 1)] (ready 0x8015)) (fun t =>
    t.getV 0 == 0#8 && t.getV 15 == 0#8) = true := by decide
/-- ALU17, ALU22. -/
theorem test_shr : runs (regs [(0, 5), (1, 0xFF)] (ready 0x8016)) (fun t =>
    t.getV 0 == 2#8 && t.getV 1 == 0xFF#8 && t.getV 15 == 1#8) = true := by decide
theorem test_shr_vf : runs (regs [(15, 2)] (ready 0x8F16)) (fun t => t.getV 15 == 0#8) = true := by decide
/-- ALU15, ALU16. -/
theorem test_subnReg : runs (regs [(0, 3), (1, 5)] (ready 0x8017)) (fun t =>
    t.getV 0 == 2#8 && t.getV 15 == 1#8) = true := by decide
theorem test_subnReg_wraps : runs (regs [(0, 5), (1, 3)] (ready 0x8017)) (fun t =>
    t.getV 0 == 0xFE#8 && t.getV 15 == 0#8) = true := by decide
/-- ALU23, ALU24. -/
theorem test_shl : runs (regs [(0, 0x81)] (ready 0x801E)) (fun t =>
    t.getV 0 == 2#8 && t.getV 15 == 1#8) = true := by decide
theorem test_shl_low : runs (regs [(0, 0x40)] (ready 0x801E)) (fun t =>
    t.getV 0 == 0x80#8 && t.getV 15 == 0#8) = true := by decide
/-- R131's example. -/
theorem test_rnd :
    runs { ready 0xC30F with inbox := [.step { Ports.idle with randByte := 0xA7 }] } (fun t => t.getV 3 == 7#8) = true := by
  decide

/-! ## Index and memory (vectors MEM) -/

/-- R140's example. -/
theorem test_ldI : runs (ready 0xA2F0) (fun t => t.i == 0x2F0#16) = true := by decide
/-- R141's corner case. -/
theorem test_addI : runs (regs [(1, 2), (15, 9)] { ready 0xF11E with i := 0xFFFF }) (fun t =>
    t.i == 1#16 && t.getV 15 == 9#8) = true := by decide
/-- R142's example, and its largest result. -/
theorem test_ldF : runs (regs [(0, 0x0A)] (ready 0xF029)) (fun t => t.i == 0x82#16) = true := by decide
theorem test_ldF_wide : runs (regs [(0, 0xFF)] (ready 0xF029)) (fun t => t.i == 0x54B#16) = true := by decide
/-- R142 and R47 under another `FONT_BASE`, `FONT_TABLE` and `MEM_INIT` (R5). -/
theorem test_ldF_base : glyphAddr 0x0A (fontBase := 0x100) = 0x132#16 := by decide
theorem test_resetByte_parameters :
    [0x0FF, 0x100, 0x101, 0x102].map (fun a => resetByte a 0x100 [0x11, 0x22] 0xEE) = [0xEE, 0x11, 0x22, 0xEE] := by decide
/-- MEM7 (two digits, the third byte kept), MEM12 (check before any write). -/
theorem test_ldB : runs (bytes 0x300 [0xAA, 0xBB, 0xCC] (regs [(1, 42)] { ready 0xF133 with i := 0x300 })) (fun t =>
    t.mem.readList 0x300 3 == [4#8, 2#8, 0xCC#8]) = true := by decide
theorem test_ldB_fault : runs (regs [(1, 42)] { ready 0xF133 with i := 0xFFF }) (fun t =>
    t.fault == some { kind := .addressOutOfRange, pc := 0x200, opcode := some 0xF133 } &&
      t.mem.read 0xFFF == 0#8) = true := by decide
/-- MEM14, MEM17. -/
theorem test_ldMemVx :
    runs (regs [(0, 0x11), (1, 0x22), (2, 0x33), (3, 0x44)] { ready 0xF255 with i := 0x300 }) (fun t =>
      t.mem.readList 0x300 4 == [0x11#8, 0x22#8, 0x33#8, 0#8] && t.i == 0x303#16) = true := by decide
theorem test_ldMemVx_fault : runs (regs [(0, 0x11)] { ready 0xF255 with i := 0xFFE }) (fun t =>
    t.fault == some { kind := .addressOutOfRange, pc := 0x200, opcode := some 0xF255 } && t.i == 0xFFE#16 &&
      t.mem.read 0xFFE == 0#8) = true := by decide
/-- MEM19, MEM21. -/
theorem test_ldVxMem : runs (bytes 0x300 [2, 3, 4] (regs [(3, 0x77)] { ready 0xF265 with i := 0x300 })) (fun t =>
    t.getV 0 == 2#8 && t.getV 2 == 4#8 && t.getV 3 == 0x77#8 && t.i == 0x303#16) = true := by decide
theorem test_ldVxMem_fault : runs { ready 0xF265 with i := 0xFFFF } (fun t =>
    t.runState == .faulted && t.i == 0xFFFF#16) = true := by decide

/-! ## Display (vectors DRW) -/

/-- DRW10. -/
theorem test_cls : runs (regs [(15, 1)] { ready 0x00E0 with fb := Vector.replicate 32 0xFF }) (fun t =>
    t.fb == Vector.replicate 32 0 && t.getV 15 == 1#8 && !t.frame) = true := by decide
/-- DRW3: both axes wrap. Row 31: columns 63 and 0 to 6; row 0: columns 63 and 6. -/
theorem test_drw_wraps :
    runs (bytes 0x300 [0xFF, 0x81] (regs [(0, 63), (1, 31)] { ready 0xD012 with i := 0x300 })) (fun t =>
      t.fb[31] == 0x800000000000007F#64 && t.fb[0] == 0x8000000000000040#64 && t.fb[1] == 0#64 && t.getV 15 == 0#8 &&
        t.frame) = true := by decide
/-- DRW7: one pixel collides. -/
theorem test_drw_collides :
    runs (bytes 0x300 [0xC0] { ready 0xD011 with i := 0x300, fb := State.reset.fb.set 0 2 }) (fun t =>
      t.fb[0] == 1#64 && t.getV 15 == 1#8) = true := by decide

/-! ## Keypad, timers and the other events (vectors KT, LR) -/

/-- KT1, KT2. -/
theorem test_skp : runs (regs [(1, 7)] { ready 0xE19E with inbox := [.step { Ports.idle with keys := 0x80 }] })
    (fun t => t.pc == 0x204#16) = true := by decide
theorem test_skp_not : runs (regs [(1, 7)] { ready 0xE19E with inbox := [.step { Ports.idle with keys := 0xFF7F }] })
    (fun t => t.pc == 0x202#16) = true := by decide
/-- KT3, and KT5: above 15 the answer is the free Boolean of its own. -/
theorem test_sknp : runs (regs [(1, 7)] (ready 0xE1A1)) (fun t => t.pc == 0x204#16) = true := by decide
theorem test_sknp_oor :
    runs (regs [(1, 0x17)] { ready 0xE1A1 with inbox := [.step { Ports.idle with keyOorSknp := true, keys := 0x80 }] })
      (fun t => t.pc == 0x202#16) = true := by decide
/-- KT6, KT7, KT8. -/
theorem test_ldVxDt : runs { ready 0xF107 with dt := 0x3C } (fun t =>
    t.getV 1 == 0x3C#8 && t.dt == 0x3C#8) = true := by decide
theorem test_ldDtVx : runs (regs [(1, 0x0A)] { ready 0xF115 with st := 5 }) (fun t =>
    t.dt == 0x0A#8 && t.st == 5#8) = true := by decide
theorem test_ldStVx : runs (regs [(1, 0xFF)] { ready 0xF118 with dt := 5 }) (fun t =>
    t.st == 0xFF#8 && t.dt == 5#8) = true := by decide
/-- KT11, KT12. -/
theorem test_ldVxK : runs (regs [(3, 9)] (ready 0xF30A)) (fun t =>
    t.runState == .awaitingKey 3 && t.pc == 0x202#16 && t.getV 3 == 9#8 && t.keyWaitBegin) = true := by decide
theorem test_keyPress : runs { ready 0 with runState := .awaitingKey 3, inbox := [.keyPress 0xB] } (fun t =>
    t.getV 3 == 0x0B#8 && t.runState == .running && t.pc == 0x200#16) = true := by decide
/-- KT13. -/
theorem test_keyPress_running : runs { ready 0 with inbox := [.keyPress 0xB] } (fun t =>
    t.v == State.reset.v && t.runState == .running) = true := by decide
/-- KT9, KT10: a timer at zero stays there; the tick is taken while waiting. -/
theorem test_timerTick :
    runs { ready 0 with runState := .awaitingKey 3, dt := 4, st := 0, inbox := [.timerTick] } (fun t =>
      t.dt == 3#8 && t.st == 0#8 && t.runState == .awaitingKey 3) = true := by decide
/-- Load of two bytes right after `Reset` (R50), LR2 (the check is `imageFits`), and a late `Load`. -/
theorem test_load : runs { State.reset with inbox := [.load [0x12, 0x00]] } (fun t =>
    t.mem == [(0x200, 0x12#8)] && t.runState == .running && !t.fresh) = true := by decide
theorem test_load_late : step { ready 0 with inbox := [.load [0x12]] } = .refused .loadNotAfterReset := rfl
/-- LR5, LR6. -/
theorem test_reset_event :
    runs (bytes 0x300 [1, 2] (regs [(1, 7)] { ready 0 with runState := .faulted, inbox := [.reset] })) (fun t =>
      t == State.reset) = true := by decide
theorem test_reset_font : State.reset.mem.readList 0x09B 6 = [0xF0, 0x80, 0xF0, 0x80, 0x80, 0x00] := by decide

/-! ## Witnesses: the hypotheses of every statement that has some can be met -/

theorem witness_EncodeGivesBackEveryDecodedWord : decode 0xDFFF#16 = .ok (.drw 15 15 0xF#4) := by decide

theorem witness_DecoderFollowsTheOpcodeMap :
    decode 0x00E0#16 = .ok .cls ∧ legalWord 0xFF65#16 = true ∧ legalWord 0xFFFF#16 = false := by decide

theorem witness_StepRunsTheDecodedInstruction_free :
    ∃ s : State, s.runState = .running ∧ s.pc.toNat + 1 < 4096 ∧
      decode (s.mem.read s.pc.toNat ++ s.mem.read (s.pc.toNat + 1)) = .ok (.ldImm 0 1) ∧ s.inbox = [] :=
  ⟨bytes 0xFFE [0x60, 0x01] { ready 0 with pc := 0xFFE, inbox := [] }, by decide⟩

theorem witness_StepRunsTheDecodedInstruction_given :
    ∃ s : State, s.runState = .running ∧ s.pc.toNat + 1 < 4096 ∧
      decode (s.mem.read s.pc.toNat ++ s.mem.read (s.pc.toNat + 1)) = .ok (.ldImm 0 1) ∧
      s.inbox = [.step Ports.idle] :=
  ⟨bytes 0xFFE [0x60, 0x01] { ready 0 with pc := 0xFFE }, by decide⟩

theorem witness_FetchBeyondMemoryFaults :
    ∃ s s' : State, NextIsStep s Ports.idle s' ∧ s.runState = .running ∧ 0xFFF ≤ s.pc.toNat :=
  ⟨{ ready 0 with pc := 0xFFF }, { ready 0 with pc := 0xFFF, inbox := [] }, rfl, rfl, by decide⟩

theorem witness_UndefinedWordFaultsAtDispatch :
    ∃ s s' : State, NextIsStep s Ports.idle s' ∧ s.runState = .running ∧ Fetches s 0x0000#16 ∧
      legalWord 0x0000#16 = false :=
  ⟨{ ready 0 with pc := 0xFFE }, { ready 0 with pc := 0xFFE, inbox := [] }, rfl, rfl, ⟨by decide, by decide⟩, by decide⟩

theorem witness_StepDoesNothingUnlessRunning :
    (∃ s s' : State, NextIsStep s Ports.idle s' ∧ s.runState = .awaitingKey 15) ∧
    (∃ s s' : State, NextIsStep s Ports.idle s' ∧ s.runState = .faulted) :=
  ⟨⟨{ ready 0 with runState := .awaitingKey 15 }, { ready 0 with runState := .awaitingKey 15, inbox := [] }, rfl, rfl⟩,
    ⟨{ ready 0 with runState := .faulted }, { ready 0 with runState := .faulted, inbox := [] }, rfl, rfl⟩⟩

theorem witness_TimerTickDecrementsBothTimers :
    ∃ s : State, s.inbox = [.timerTick] ∧ s.dt = 1 ∧ s.st = 0 :=
  ⟨{ ready 0 with dt := 1, inbox := [.timerTick] }, by decide⟩

theorem witness_RepeatedTicksCountDownToZero :
    ∃ s : State, s.inbox = List.replicate 11 .timerTick ++ [] ∧ s.dt = 10 ∧ s.st = 2 :=
  ⟨{ ready 0 with dt := 10, st := 2, inbox := List.replicate 11 .timerTick }, by decide⟩

theorem witness_KeyPressEndsOnlyAWait :
    (∃ s : State, s.inbox = [.keyPress 0xF] ∧ s.runState = .awaitingKey 15) ∧
    (∃ s : State, s.inbox = [.keyPress 0xF] ∧ s.runState = .running) ∧
    (∃ s : State, s.inbox = [.keyPress 0xF] ∧ s.runState = .faulted) :=
  ⟨⟨{ ready 0 with runState := .awaitingKey 15, inbox := [.keyPress 0xF] }, by decide⟩,
    ⟨{ ready 0 with inbox := [.keyPress 0xF] }, by decide⟩,
    ⟨{ ready 0 with runState := .faulted, inbox := [.keyPress 0xF] }, by decide⟩⟩

theorem witness_KeyWaitLastsUntilTheKeyPress :
    ∃ s : State, s.runState = .awaitingKey 3 ∧
      s.inbox = [Ports.idle, Ports.idle].map .step ++ .keyPress 7 :: [.timerTick] :=
  ⟨{ ready 0 with
      runState := .awaitingKey 3
      inbox := [.step Ports.idle, .step Ports.idle, .keyPress 7, .timerTick] }, by decide⟩

theorem witness_OnlyKeyPressOrResetEndsAWait :
    ∀ e ∈ [HostEvent.step Ports.idle, .timerTick, .keyPress 0, .reset],
      ∃ s t : State, s.runState = .awaitingKey 3 ∧ s.fresh = false ∧ s.inbox = [e] ∧ step s = .next t := by
  intro e he
  simp only [List.mem_cons, List.not_mem_nil, or_false] at he
  rcases he with rfl | rfl | rfl | rfl <;>
    exact ⟨{ ready 0 with runState := .awaitingKey 3, inbox := [_] }, _, rfl, rfl, rfl, rfl⟩

theorem witness_ResetEventRestoresEveryValue : ∃ s : State, s.inbox = [.reset] ∧ s.runState = .faulted :=
  ⟨{ ready 0 with runState := .faulted, inbox := [.reset] }, by decide⟩

theorem witness_ResetMemoryHoldsTheFont : (0x04F < 0x050 ∨ 0x0A0 ≤ 0x04F) ∧ (0x0A0 < 0x050 ∨ 0x0A0 ≤ 0x0A0) := by
  decide

theorem witness_LoadCopiesTheImage :
    ∃ s : State, s.mem.wf = true ∧ s.fresh = true ∧ s.inbox = [.load (List.replicate 3584 1)] ∧
      (List.replicate 3584 (1 : Byte)).length + 0x200 ≤ 4096 :=
  ⟨{ State.reset with inbox := [.load (List.replicate 3584 1)] }, rfl, rfl, rfl, by rw [List.length_replicate]⟩

theorem witness_OversizedLoadFaultsAndWritesNothing :
    ∃ s : State, s.fresh = true ∧ s.inbox = [.load (List.replicate 3585 1)] ∧
      4096 < (List.replicate 3585 (1 : Byte)).length + 0x200 :=
  ⟨{ State.reset with inbox := [.load (List.replicate 3585 1)] }, rfl, rfl, by rw [List.length_replicate]; decide⟩

theorem witness_CallPushesAndJumps :
    (∃ s : State, s.sp.val = 15) ∧ (∃ s : State, s.sp.val = 16) :=
  ⟨⟨{ ready 0x2300 with sp := 15 }, rfl⟩, ⟨{ ready 0x2300 with sp := 16 }, rfl⟩⟩

theorem witness_ReturnPopsIntoPc :
    (∃ s : State, s.sp.val = 16) ∧ (∃ s : State, s.sp.val = 1) ∧ (∃ s : State, s.sp.val = 0) :=
  ⟨⟨{ ready 0x00EE with sp := 16 }, rfl⟩, ⟨{ ready 0x00EE with sp := 1 }, rfl⟩, ⟨ready 0x00EE, rfl⟩⟩

/-- The state after the call itself is one from which the return comes back; so is one whose other state differs. -/
theorem witness_ReturnRestoresTheCaller :
    ∃ s t u : State, s.sp.val = 15 ∧ exec (.call 0x300) s = .next t ∧ u.sp = t.sp ∧
      (∀ k : Fin 16, k.val < t.sp.val → u.stack[k.val] = t.stack[k.val]) ∧ u.pc ≠ t.pc :=
  ⟨{ ready 0 with sp := 15 },
    { ready 0 with sp := 16, pc := 0x300, stack := State.reset.stack.set 15 0x200 },
    { ready 0 with sp := 16, pc := 0x310, stack := State.reset.stack.set 15 0x200 }, rfl, rfl, rfl,
    fun _ _ => rfl, by decide⟩

theorem witness_KeySkipsFollowTheKeyLevel :
    (∃ s : State, (s.getV 1).toNat ≤ 15 ∧ s.getV 1 = 15) ∧ (∃ s : State, 15 < (s.getV 1).toNat ∧ s.getV 1 = 16) :=
  ⟨⟨regs [(1, 15)] (ready 0xE19E), by decide⟩, ⟨regs [(1, 16)] (ready 0xE19E), by decide⟩⟩

theorem witness_SkipLeavesPcFourOrTwoFurther (cond : Bool) :
    ∃ s s' : State, NextIsStep s Ports.idle s' ∧ s.runState = .running ∧ Fetches s 0x312A#16 ∧
      decode 0x312A#16 = .ok (.seImm 1 0x2A) ∧ skipCondition Ports.idle s (.seImm 1 0x2A) = some cond :=
  ⟨regs [(1, if cond then 0x2A else 0x2B)] (bytes 0xFFE [0x31, 0x2A] { ready 0 with pc := 0xFFE }),
    regs [(1, if cond then 0x2A else 0x2B)] (bytes 0xFFE [0x31, 0x2A] { ready 0 with pc := 0xFFE, inbox := [] }),
    rfl, rfl, by cases cond <;> exact ⟨by decide, by decide⟩, by decide, by cases cond <;> decide⟩

theorem witness_AddSetsCarry : (14 : Reg) ≠ 15 := by decide
theorem witness_SubtractionsSetStrictlyGreater : (0 : Reg) ≠ 15 := by decide
theorem witness_ShiftsPutTheBitShiftedOutInVF : (14 : Reg) ≠ 15 := by decide
theorem witness_ShiftsUnderEitherShiftSource : (0 : Reg) ≠ 15 := by decide

theorem witness_DecimalDigitsAreStoredWithoutLeadingZeros :
    (∃ s : State, s.mem.wf = true ∧ (s.getV 1).toNat = 100 ∧ s.effAddr 3 = 4096) ∧
    (∃ s : State, s.mem.wf = true ∧ (s.getV 1).toNat = 99 ∧ s.effAddr 2 = 4096) ∧
    (∃ s : State, s.mem.wf = true ∧ (s.getV 1).toNat = 10 ∧ s.effAddr 2 = 4096) ∧
    (∃ s : State, s.mem.wf = true ∧ (s.getV 1).toNat = 9 ∧ s.effAddr 1 = 4096) :=
  ⟨⟨regs [(1, 100)] { ready 0xF133 with i := 0xFFD }, by decide⟩,
    ⟨regs [(1, 99)] { ready 0xF133 with i := 0xFFE }, by decide⟩,
    ⟨regs [(1, 10)] { ready 0xF133 with i := 0xFFE }, by decide⟩,
    ⟨regs [(1, 9)] { ready 0xF133 with i := 0xFFF }, by decide⟩⟩

theorem witness_BlockStoreWritesV0ToVx : ∃ s : State, s.mem.wf = true ∧ s.effAddr (15 : Reg).val = 4095 :=
  ⟨{ ready 0xFF55 with i := 0xFF0 }, by decide⟩

theorem witness_BlockLoadReadsV0ToVx : ∃ s : State, s.effAddr (15 : Reg).val = 4095 :=
  ⟨{ ready 0xFF65 with i := 0xFF0 }, by decide⟩

theorem witness_OutOfRangeAccessHasNoEffect :
    (∃ s : State, (15 : Nibble) ≠ 0 ∧ s.effAddr (15 : Nibble).toNat = 4097) ∧
    (∃ s : State, (s.getV 1).toNat = 42 ∧ s.effAddr 2 = 4097) ∧
    (∃ s : State, s.effAddr (2 : Reg).val = 4096) ∧ (∃ s : State, s.i = 0xFFFF ∧ 4096 ≤ s.effAddr (0 : Reg).val) :=
  ⟨⟨{ ready 0 with i := 0xFF2 }, by decide⟩, ⟨regs [(1, 42)] { ready 0 with i := 0xFFF }, by decide⟩,
    ⟨{ ready 0 with i := 0xFFE }, by decide⟩, ⟨{ ready 0 with i := 0xFFFF }, by decide⟩⟩

theorem witness_StoredBytesAreFetched :
    ∃ s t : State, s.mem.wf = true ∧ s.effAddr (1 : Reg).val = 4095 ∧ (1 : Reg).val = (0 : Reg).val + 1 ∧
      (1 : Reg) ≤ 1 ∧ exec (.ldMemVx 1) s = .next t ∧ t.pc.toNat = s.effAddr (0 : Reg).val :=
  ⟨regs [(0, 0x12), (1, 0x34)] { ready 0 with i := 0xFFE, pc := 0xFFE }, _, by decide, by decide, rfl, by decide, rfl, by decide⟩

theorem witness_DrawFlipsTheSpritesPixels :
    (∃ s : State, (0 : Nibble) = 0 ∧ s.i = 0xFFFF) ∧ (∃ s : State, s.effAddr (15 : Nibble).toNat = 4096) :=
  ⟨⟨{ ready 0 with i := 0xFFFF }, by decide⟩, ⟨{ ready 0 with i := 0xFF1 }, by decide⟩⟩

/-- The second draw's registers hold the first one's coordinates, also where one of those was `VF`. -/
theorem witness_DrawingTwiceRestoresTheFramebuffer :
    ∃ s t : State, s.effAddr (5 : Nibble).toNat ≤ 4096 ∧ exec (.drw 15 0 5) s = .next t ∧
      t.getV 1 = s.getV 15 ∧ t.getV 0 = s.getV 0 :=
  ⟨regs [(1, 7), (15, 7)] { ready 0 with i := 0x050 }, _, by decide, rfl, by decide, by decide⟩

theorem witness_VFIsWrittenOnlyAsFlagOrDestination :
    (∃ s t : State, exec (.addImm 14 1) s = .next t ∧ writesFlag (.addImm 14 1) = false ∧
      namesDestination 15 (.addImm 14 1) = false) ∧
    (∃ s t : State, exec (.addReg 15 15) s = .next t ∧ writesFlag (.addReg 15 15) = true) ∧
    (∃ s t : State, exec (.drw 0 0 1) s = .next t ∧ s.i = 0x1000 ∧ writesFlag (.drw 0 0 1) = true) :=
  ⟨⟨ready 0, _, rfl, by decide, by decide⟩, ⟨ready 0, _, rfl, by decide⟩,
    ⟨{ ready 0 with i := 0x1000 }, _, rfl, rfl, by decide⟩⟩

theorem witness_RegistersAreWrittenOnlyAsDestination :
    (∃ s t : State, exec (.ldVxMem 1) s = .next t ∧ namesDestination 2 (.ldVxMem 1) = false) ∧
    (∃ s t : State, exec (.ldVxMem 14) s = .next t ∧ namesDestination 15 (.ldVxMem 14) = false ∧
      writesFlag (.ldVxMem 14) = false) :=
  ⟨⟨ready 0, _, rfl, by decide⟩, ⟨ready 0, _, rfl, by decide, by decide⟩⟩

theorem witness_OnlyTheTwoStoresChangeMemory :
    ∃ s t : State, exec .cls s = .next t ∧ (∀ x, Instr.cls ≠ .ldB x) ∧ (∀ x, Instr.cls ≠ .ldMemVx x) :=
  ⟨ready 0, _, rfl, by decide, by decide⟩

theorem witness_OnlyDrawAndClearChangeTheScreen :
    ∃ s t : State, exec .ret s = .next t ∧ (∀ x y n, Instr.ret ≠ .drw x y n) ∧ Instr.ret ≠ .cls ∧
      (∀ x, Instr.ret ≠ .ldVxK x) :=
  ⟨ready 0, _, rfl, fun _ _ _ => by simp, by simp, by simp⟩

theorem witness_ControlRegistersHaveTheirOwnWriters :
    ∃ s t : State, exec .cls s = .next t ∧ (∀ nnn, Instr.cls ≠ .call nnn) ∧ Instr.cls ≠ .ret ∧
      writesIndex .cls = false ∧ writesPc .cls = false ∧ (∀ x, Instr.cls ≠ .ldDtVx x) ∧
      (∀ x, Instr.cls ≠ .ldStVx x) :=
  ⟨ready 0, _, rfl, fun _ => by simp, by simp, by decide, by decide, by simp, by simp⟩

theorem witness_InputsReachOnlyTheirThreeInstructions :
    ∃ s t : State, (∀ x, Instr.ldVxK 3 ≠ .skp x) ∧ (∀ x, Instr.ldVxK 3 ≠ .sknp x) ∧
      (∀ x kk, Instr.ldVxK 3 ≠ .rnd x kk) ∧ exec (.ldVxK 3) s = .next t :=
  ⟨ready 0, _, by simp, by simp, fun _ _ => by simp, rfl⟩

theorem witness_SoundTimerIsNeverRead :
    ∃ s t t' : State, exec (.ldVxDt 1) s = .next t ∧ exec (.ldStVx 1) s = .next t' :=
  ⟨{ ready 0 with st := 5 }, _, _, rfl, rfl⟩

theorem witness_FramebufferIsReadOnlyByDraw :
    ∃ s t : State, (∀ x y n, Instr.cls ≠ .drw x y n) ∧ exec .cls s = .next t :=
  ⟨ready 0, _, fun _ _ _ => by simp, rfl⟩

theorem witness_ExecuteFaultsArePrecise :
    ∃ s t : State, s.runState = .running ∧ exec (.ldB 1) s = .next t ∧ t.runState = .faulted :=
  ⟨regs [(1, 42)] { ready 0 with i := 0xFFF }, _, rfl, rfl, rfl⟩

theorem witness_FaultedIsLeftOnlyByReset :
    ∀ e ∈ [HostEvent.step Ports.idle, .timerTick, .keyPress 0, .reset],
      ∃ s t : State, s.runState = .faulted ∧ s.fresh = false ∧ s.inbox = [e] ∧ step s = .next t := by
  intro e he
  simp only [List.mem_cons, List.not_mem_nil, or_false] at he
  rcases he with rfl | rfl | rfl | rfl <;>
    exact ⟨{ ready 0 with runState := .faulted, inbox := [_] }, _, rfl, rfl, rfl, rfl⟩

/-- One state for each of the seven clauses; the first clause's word is `Fx0A`, the second's is not. -/
theorem witness_RunStateFollowsItsTransitions :
    (∃ s t : State, step s = .next t ∧ s.takeEvent.1 = .step Ports.idle ∧ s.runState = .running ∧
      Fetches s 0xF30A#16 ∧ decode 0xF30A#16 = .ok (.ldVxK 3)) ∧
    (∃ s t : State, step s = .next t ∧ s.takeEvent.1 = .step Ports.idle ∧ s.runState = .running ∧
      ¬∃ w x, Fetches s w ∧ decode w = .ok (.ldVxK x)) ∧
    (∃ s t : State, step s = .next t ∧ s.takeEvent.1 = .step Ports.idle ∧ s.runState ≠ .running) ∧
    (∃ s t : State, step s = .next t ∧ s.takeEvent.1 = .keyPress 0 ∧ s.runState = .awaitingKey 3) ∧
    (∃ s t : State, step s = .next t ∧ s.takeEvent.1 = .keyPress 0 ∧ s.runState = .running) ∧
    (∃ s t : State, step s = .next t ∧ s.takeEvent.1 = .timerTick) ∧
    (∃ s t : State, step s = .next t ∧ s.takeEvent.1 = .reset) ∧
    (∃ s t : State, step s = .next t ∧ s.takeEvent.1 = .load []) :=
  ⟨⟨ready 0xF30A, _, rfl, rfl, rfl, ⟨by decide, by decide⟩, by decide⟩,
    ⟨{ ready 0 with pc := 0xFFF }, _, rfl, rfl, rfl, fun ⟨_, _, h, _⟩ => absurd h.1 (by decide)⟩,
    ⟨{ ready 0 with runState := .faulted }, _, rfl, rfl, by decide⟩,
    ⟨{ ready 0 with runState := .awaitingKey 3, inbox := [.keyPress 0] }, _, rfl, rfl, rfl⟩,
    ⟨{ ready 0 with inbox := [.keyPress 0] }, _, rfl, rfl, rfl⟩,
    ⟨{ ready 0 with inbox := [.timerTick] }, _, rfl, rfl⟩,
    ⟨{ ready 0 with inbox := [.reset] }, _, rfl, rfl⟩,
    ⟨{ State.reset with inbox := [.load []] }, _, rfl, rfl⟩⟩

theorem witness_StepAnswersUnlessLoadIsLate :
    (∃ s : State, s.fresh = false ∧ s.takeEvent.1 = .load []) ∧ (∃ s : State, s.fresh = true) ∧
    (∃ s : State, s.fresh = false ∧ ∀ bs, s.takeEvent.1 ≠ .load bs) :=
  ⟨⟨{ ready 0 with inbox := [.load []] }, rfl, rfl⟩, ⟨State.reset, rfl⟩, ⟨ready 0, rfl, fun _ h => nomatch h⟩⟩

theorem witness_SelfJumpStandsStill :
    ∃ s s' : State, s.atSelfJump ∧ NextIsStep s Ports.idle s' :=
  ⟨ready 0x1200, { ready 0x1200 with inbox := [] }, ⟨rfl, 0x200, by decide, by decide, by decide⟩, rfl⟩

/-- The last address of the font table, the first beyond it, and a state with a fault and blocks to transfer. -/
theorem witness_ParametersMayTakeAnyValue :
    (0x09F < 4096 ∧ Params.fontBase ≤ 0x09F ∧ 0x09F - Params.fontBase < Params.fontTable.length) ∧
    (4095 < 4096 ∧ ¬4095 - Params.fontBase < Params.fontTable.length) ∧
    (∃ s : State, s.fault = some { kind := .loadError, pc := 0x200, opcode := none }) ∧
    (∃ s t t' : State, s.storeBlock .unchanged 15 = .ok t ∧ s.loadBlock .unchanged 15 = .ok t') :=
  ⟨by decide, by decide, ⟨{ ready 0 with fault := some { kind := .loadError, pc := 0x200, opcode := none } }, rfl⟩,
    ⟨{ ready 0 with i := 0xFF0 }, _, _, rfl, rfl⟩⟩

/-- A state that has run, meets the invariant and is not `Reset`'s, with a step to take. -/
theorem witness_StepKeepsTheInvariant : ∃ s t : State, s.Inv ∧ s.fresh = false ∧ step s = .next t :=
  ⟨ready 0x612A, _,
    { memCanonical := by decide, faultedIffRecord := by decide, recordFits := (fun _ h => nomatch h),
      recordPc := (fun _ h => nomatch h), pcBound := by decide, slotBound := by decide,
      freshIsReset := (fun h => nomatch h) }, rfl, rfl⟩

end Sys2Proof.Tests
end

section
/-! PROOFS. The parameters of R5 at every value: memory after `Reset`, the code of a fault, and the block transfers
under the other value of `BLOCK_XFER_I_STEP`. -/

namespace Sys2Proof.Machine

/-- A list of the cells in which `f` differs from the default contents reads as `f` at the addresses it was made
from, since a cell left out is one whose default already is `f`'s byte, and as the default elsewhere. -/
theorem read_differences (f : Nat → Byte) (a : Nat) :
    ∀ l : List Nat, Memory.read ((l.map fun b => (b, f b)).filter fun c => c.2 ≠ resetByte c.1) a =
      if a ∈ l then f a else resetByte a
  | [] => by simp
  | b :: l => by
    have ih := read_differences f a l
    rw [List.map_cons, List.filter_cons]
    by_cases hab : b = a
    · subst hab
      rw [if_pos List.mem_cons_self]
      split
      · exact read_cons_same _ _ _
      · next hkept =>
        have hf : f b = resetByte b := by simpa using hkept
        rw [ih, hf, ite_self]
    · have hmem : a ∈ b :: l ↔ a ∈ l := by simp [Ne.symm hab]
      simp only [hmem, ← ih]
      split
      · exact read_cons_of_ne hab
      · rfl

/-- Each address of R40 reads after `Reset` as `resetByte` under the same parameters (R47 to R49). -/
theorem read_resetMemory (base : Nat) (table : List Byte) (init : Byte) {a : Nat} (ha : a < 4096) :
    (resetMemory base table init).read a = resetByte a base table init := by
  rw [resetMemory, read_differences, if_pos (List.mem_range.2 ha)]

/-- `Fx29`'s operation, as a number: the base and five bytes for each digit, in the sixteen bits of `I` (R142). -/
theorem glyphAddr_toNat (vx : Byte) (base : Nat) :
    (glyphAddr vx base).toNat = (base + 5 * vx.toNat) % 65536 := BitVec.toNat_ofNat _ _

/-- `Fx29`'s operation writes `I` and nothing else, whatever the base (R142). -/
theorem onlyIndex_pointAtGlyph (s : State) (x : Reg) (base : Nat) : OnlyIndex s (s.pointAtGlyph x base) :=
  ⟨fun _ _ => rfl, rfl, ⟨rfl, rfl⟩, ⟨rfl, rfl⟩, rfl, ⟨rfl, rfl⟩, ⟨rfl, rfl⟩, ⟨rfl, rfl, rfl, rfl⟩, fun _ => rfl⟩

/-- The host reads the code of the recorded kind (R28, R32d). -/
theorem faultCode_of_fault {s : State} {f : FaultRecord} (h : s.fault = some f) (codes : Vector Nat 5) :
    s.faultCode codes = some (f.kind.code codes) := by
  rw [State.faultCode, h, Option.map_some]

/-- What a mapped computation answers when it completes is the function of some answer. -/
theorem exists_of_map_eq_ok {ε α β : Type} {f : α → β} {b : β} :
    ∀ {e : Except ε α}, e.map f = .ok b → ∃ a, f a = b
  | .ok a, h => ⟨a, Except.ok.inj h⟩

/-- A block store that completes leaves `I` where `BLOCK_XFER_I_STEP` says (R144). -/
theorem storeBlock_i {s t : State} {step : Config.BlockXferStep} {x : Reg} (h : s.storeBlock step x = .ok t) :
    t.i = blockEnd step s.i x := by
  obtain ⟨_, rfl⟩ := exists_of_map_eq_ok h
  rfl

/-- A block load that completes leaves `I` where `BLOCK_XFER_I_STEP` says (R145). -/
theorem loadBlock_i {s t : State} {step : Config.BlockXferStep} {x : Reg} (h : s.loadBlock step x = .ok t) :
    t.i = blockEnd step s.i x := by
  obtain ⟨_, rfl⟩ := exists_of_map_eq_ok h
  rfl

/-- Settles O60: the memory of `Reset` lists exactly the cells in which the parameters' contents differ from the
default ones, so it reads as those contents; each other clause is the law of its operation. -/
theorem parametersMayTakeAnyValue : Obligations.ParametersMayTakeAnyValue := by
  intro base table init codes s x
  refine ⟨fun a ha => ?_, fun a => ?_, ⟨glyphAddr_toNat _ _, onlyIndex_pointAtGlyph s x base⟩, fun f hf => ?_,
    fun t ht => storeBlock_i ht, fun t ht => loadBlock_i ht⟩
  · rw [read_resetMemory base table init ha, resetByte_eq]
  · rw [resetMemory_default]; rfl
  · rw [faultCode_of_fault hf]
    cases f.kind <;> rfl

end Sys2Proof.Machine
end

section
/-! PROOFS. The words the decoder refuses are those outside the opcode map of R64 (R67). -/

namespace Sys2Proof

/-! What a mask comparison of R64 says of the fields that the decoder compares, mask by mask. -/

theorem fieldN0_of_and_F000 {w m : Word} (h : w &&& 0xF000#16 = m) : fieldN0 w = fieldN0 m := by
  rw [← h, ← wordNNN_fields w, wordNNN_and_F000, fieldN0_wordNNN, fieldN0_wordNNN]

theorem fields_of_and_F00F {w m : Word} (h : w &&& 0xF00F#16 = m) :
    fieldN0 w = fieldN0 m ∧ fieldN w = fieldN m := by
  rw [← h, ← wordXYN_fields w, wordXYN_and_F00F]
  simp only [fieldN0_wordXYN, fieldN_wordXYN, and_self]

theorem fields_of_and_F0FF {w m : Word} (h : w &&& 0xF0FF#16 = m) :
    fieldN0 w = fieldN0 m ∧ fieldKK w = fieldKK m := by
  rw [← h, ← wordXKK_fields w, wordXKK_and_F0FF]
  simp only [fieldN0_wordXKK, fieldKK_wordXKK, and_self]

/-- A word that selects the row of some instruction decodes: the digits the row compares are those on which the
decoder branches (R64, R65). -/
theorem exists_decode_of_selects {w : Word} (i : Instr) (h : i.row.selects w = true) : ∃ j, decode w = .ok j := by
  have hm : w &&& i.row.mask = i.row.mtch := by simpa only [OpcodeRow.selects, beq_iff_eq] using h
  cases i with
  | cls | ret =>
    obtain rfl : w = _ := (BitVec.and_allOnes (x := w)).symm.trans hm
    exact ⟨_, rfl⟩
  | jp | call | seImm | sneImm | ldImm | addImm | ldI | jpV0 | rnd | drw =>
    have h0 := fieldN0_of_and_F000 hm
    rw [decode, h0]
    simp [Instr.row, fieldN0]
  | seReg | sneReg =>
    obtain ⟨h0, hn⟩ := fields_of_and_F00F hm
    rw [decode, h0, hn]
    simp [Instr.row, fieldN0, fieldN]
  | ldReg | orReg | andReg | xorReg | addReg | subReg | shr | subnReg | shl =>
    obtain ⟨h0, hn⟩ := fields_of_and_F00F hm
    rw [decode, decodeGroup8, h0, hn]
    simp [Instr.row, fieldN0, fieldN]
  | skp | sknp =>
    obtain ⟨h0, hkk⟩ := fields_of_and_F0FF hm
    rw [decode, h0, hkk]
    simp [Instr.row, fieldN0, fieldKK]
  | ldVxDt | ldVxK | ldDtVx | ldStVx | addI | ldF | ldB | ldMemVx | ldVxMem =>
    obtain ⟨h0, hkk⟩ := fields_of_and_F0FF hm
    rw [decode, decodeGroupF, h0, hkk]
    simp [Instr.row, fieldN0, fieldKK]

/-- A word the decoder refuses selects no row of the opcode map (R67). -/
theorem legalWord_of_decode_error {w : Word} {e : DecodeError} (h : decode w = .error e) : legalWord w = false := by
  rw [legalWord, List.any_eq_false]
  intro row hrow hsel
  obtain ⟨i, -, rfl⟩ := List.mem_map.1 hrow
  obtain ⟨j, hj⟩ := exists_decode_of_selects i hsel
  rw [hj] at h
  cases h

end Sys2Proof
end

section
/-! PROOFS. What each instruction leaves unchanged (R11, R12, R23, R25, R32): the writer table of the state, proved
once for all instructions. -/

namespace Sys2Proof.Machine

/-- The writer table of R23, with R11, R25, R32 and R42: each piece of state that `i` does not write is the same in `t`
as in `s`. -/
structure WritesOnlyItsOwn (i : Instr) (s t : State) : Prop where
  regs : ∀ r, namesDestination r i = false → (r ≠ 15 ∨ writesFlag i = false) → t.getV r = s.getV r
  stack : (∀ nnn, i ≠ .call nnn) → i ≠ .ret → SameStack s t
  index : writesIndex i = false → t.i = s.i
  pc : writesPc i = false → t.pc = s.pc
  dt : (∀ x, i ≠ .ldDtVx x) → t.dt = s.dt
  st : (∀ x, i ≠ .ldStVx x) → t.st = s.st
  pixels : (∀ x y n, i ≠ .drw x y n) → i ≠ .cls → SamePixels s t
  frame : (∀ x y n, i ≠ .drw x y n) → t.frame = s.frame
  keyWaitBegin : (∀ x, i ≠ .ldVxK x) → t.keyWaitBegin = s.keyWaitBegin
  mem : (∀ x, i ≠ .ldB x) → (∀ x, i ≠ .ldMemVx x) → t.mem = s.mem
  host : SameHost s t

/-- A fault taken by an instruction writes the run state and the record alone (R87, R176). -/
theorem faultTaken_raise (s : State) (k : FaultKind) (i : Instr) :
    FaultTaken k (s.pc - 2) (some (encode i)) s (s.raise k i) :=
  ⟨rfl, rfl, fun _ _ => rfl, rfl, rfl, ⟨rfl, rfl⟩, ⟨rfl, rfl⟩, rfl, ⟨rfl, rfl⟩, ⟨rfl, rfl, rfl, rfl⟩,
    fun _ => rfl⟩

/-- An instruction that faults keeps to the writer table: the run state and the record are not in the table. -/
theorem writesOnlyItsOwn_raise (s : State) (k : FaultKind) (i : Instr) : WritesOnlyItsOwn i s (s.raise k i) where
  regs _ _ _ := rfl
  stack _ _ := ⟨rfl, rfl⟩
  index _ := rfl
  pc _ := rfl
  dt _ := rfl
  st _ := rfl
  pixels _ _ := rfl
  frame _ := rfl
  keyWaitBegin _ := rfl
  mem _ _ := rfl
  host := ⟨rfl, rfl, rfl, rfl⟩

/-- A register that is neither the destination nor, for a flag writer, `VF` keeps its value (R11, R12). -/
theorem Completes.getV_eq {i : Instr} {s t : State} (h : Completes s t i) (r : Reg)
    (hr : namesDestination r i = false) (hf : r ≠ 15 ∨ writesFlag i = false) : t.getV r = s.getV r := by
  cases i with
  | ldImm x | addImm x | ldReg x | orReg x | andReg x | xorReg x | rnd x | ldVxDt x =>
    obtain ⟨b, rfl⟩ := h
    have hx : ¬x = r := fun e => by simp [namesDestination, e] at hr
    rw [getV_setV, if_neg hx]
  | addReg x | subReg x | subnReg x | shr x | shl x =>
    obtain ⟨b, f, rfl⟩ := h
    have hx : ¬x = r := fun e => by simp [namesDestination, e] at hr
    have h15 : ¬15 = r := fun e => by simp [writesFlag, e] at hf
    rw [getV_setResultThenFlag, if_neg h15, if_neg hx]
  | drw x y n =>
    obtain rfl := h
    have h15 : ¬15 = r := fun e => by simp [writesFlag, e] at hf
    rw [getV_drawn, if_neg h15]
  | ldVxMem x =>
    obtain ⟨-, rfl⟩ := h
    have hx : ¬r ≤ x := by simpa [namesDestination] using hr
    have hread := getV_setVUpTo s x r (s.mem.readList s.i.toNat (x.val + 1))
    rw [if_neg hx] at hread
    simpa only [State.getV] using hread
  | ldI | addI | ldF | ret | call | ldB | ldMemVx => obtain ⟨_, rfl⟩ := h; rfl
  | _ => obtain rfl := h; rfl

/-- An instruction that completes keeps to the writer table. -/
theorem Completes.writesOnlyItsOwn {i : Instr} {s t : State} (h : Completes s t i) : WritesOnlyItsOwn i s t := by
  have hregs := h.getV_eq
  cases i with
  | ldImm | addImm | ldReg | orReg | andReg | xorReg | rnd | ldVxDt | ldI | addI | ldF | ret | call | ldB | ldMemVx
  | ldVxMem =>
    obtain ⟨_, rfl⟩ := h
    constructor
    case regs => exact hregs
    all_goals simp [writesIndex, writesPc, SameStack, SamePixels, SameHost]
  | addReg | subReg | subnReg | shr | shl =>
    obtain ⟨_, _, rfl⟩ := h
    constructor
    case regs => exact hregs
    all_goals simp [writesIndex, writesPc, SameStack, SamePixels, SameHost]
  | _ =>
    obtain rfl := h
    constructor
    case regs => exact hregs
    all_goals simp [writesIndex, writesPc, SameStack, SamePixels, SameHost]

/-- Whether it completes or faults, an instruction keeps to the writer table. -/
theorem exec_writesOnlyItsOwn {i : Instr} {s t : State} (h : exec i s = .next t) : WritesOnlyItsOwn i s t := by
  obtain ⟨kind, -, rfl⟩ | hc := exec_cases h
  · exact writesOnlyItsOwn_raise s kind i
  · exact hc.writesOnlyItsOwn

theorem flagByte_zero_or_one (f : Bool) : flagByte f = 0 ∨ flagByte f = 1 := by
  cases f
  · exact .inl rfl
  · exact .inr rfl

/-- A flag writer that completes leaves a flag in `VF`, also when `VF` is its destination (R12, R86). -/
theorem Completes.flag_in_VF {i : Instr} {s t : State} (h : Completes s t i) (hf : writesFlag i = true) :
    ∃ f, t.getV 15 = flagByte f := by
  cases i with
  | addReg | subReg | subnReg | shr | shl =>
    obtain ⟨b, f, rfl⟩ := h
    exact ⟨f, by rw [getV_setResultThenFlag, if_pos rfl]⟩
  | drw x y n =>
    obtain rfl := h
    exact ⟨_, by rw [getV_drawn, if_pos rfl]⟩
  | _ => cases hf

/-- The one fault a flag writer can raise is `Dxyn`'s (R178). -/
theorem executeFault_of_writesFlag {i : Instr} {k : FaultKind} (hf : writesFlag i = true)
    (hk : executeFault i = some k) : k = .addressOutOfRange := by
  cases i with
  | drw => exact (Option.some.inj hk).symm
  | addReg | subReg | subnReg | shr | shl => cases hk
  | _ => cases hf

/-- Settles O45: outside the flag writers `VF` is a register like any other; a flag writer leaves a flag there, or
has raised the one fault it can. -/
theorem vfIsWrittenOnlyAsFlagOrDestination : Obligations.VFIsWrittenOnlyAsFlagOrDestination := by
  intro i s t h
  refine ⟨fun hflag hdest => (exec_writesOnlyItsOwn h).regs 15 hdest (.inr hflag), fun hflag => ?_⟩
  obtain ⟨kind, hkind, rfl⟩ | hc := exec_cases h
  · obtain rfl := executeFault_of_writesFlag hflag hkind
    exact .inr (faultTaken_raise s _ i)
  · obtain ⟨f, hf⟩ := hc.flag_in_VF hflag
    exact .inl (hf ▸ flagByte_zero_or_one f)

/-- Settles O46: the registers' line of the writer table. -/
theorem registersAreWrittenOnlyAsDestination : Obligations.RegistersAreWrittenOnlyAsDestination :=
  fun _ r _ _ h => (exec_writesOnlyItsOwn h).regs r

/-- Settles O48: the lines of the framebuffer and of the two strobes. -/
theorem onlyDrawAndClearChangeTheScreen : Obligations.OnlyDrawAndClearChangeTheScreen := by
  intro i s t h
  have hw := exec_writesOnlyItsOwn h
  exact ⟨hw.pixels, hw.frame, hw.keyWaitBegin⟩

/-- Settles O49: the lines of the call stack, `I`, `pc` and the timers. -/
theorem controlRegistersHaveTheirOwnWriters : Obligations.ControlRegistersHaveTheirOwnWriters := by
  intro i s t h
  have hw := exec_writesOnlyItsOwn h
  exact ⟨hw.stack, hw.index, hw.pc, hw.dt, hw.st⟩

end Sys2Proof.Machine
end

section
/-! PROOFS. What instructions do not read (R22, R25, R33): for each of the level inputs, the sound timer and the
framebuffer, an instruction that does not name it does the same whatever it holds. -/

namespace Sys2Proof.Machine

/-- `s` with the level inputs, the sound timer and the framebuffer changed, each by a function of its own. -/
def State.alter (fp : Ports → Ports) (fst : Byte → Byte) (ffb : Framebuffer → Framebuffer) (s : State) : State :=
  { s with ports := fp s.ports, st := fst s.st, fb := ffb s.fb }

section
variable {fp : Ports → Ports} {fst : Byte → Byte} {ffb : Framebuffer → Framebuffer} {s t : State}

/-- When the answer in `s` is `u`, and in the altered state it is `u` altered, then so for every name of that answer. -/
theorem alter_of_answer {i : Instr} {u : State} (h : exec i s = .next t) (hu : exec i s = .next u)
    (ha : exec i (s.alter fp fst ffb) = .next (u.alter fp fst ffb)) :
    exec i (s.alter fp fst ffb) = .next (t.alter fp fst ffb) := by
  obtain rfl := Host.Outcome.next.inj (hu.symm.trans h)
  exact ha

/-- `Dxyn` reads neither the level inputs nor the sound timer (R22, R33). -/
theorem exec_drw_alter {x y : Reg} {n : Nibble} (h : exec (.drw x y n) s = .next t) :
    exec (.drw x y n) (s.alter fp fst id) = .next (t.alter fp fst id) := by
  by_cases hs : n = 0 ∨ s.i.toNat + n.toNat ≤ 4096
  · exact alter_of_answer h (execDrw_ok x y n s hs) (execDrw_ok x y n (s.alter fp fst id) hs)
  · exact alter_of_answer h (execDrw_fault x y n s hs) (execDrw_fault x y n (s.alter fp fst id) hs)

/-- The instructions that read or overwrite the level inputs, the sound timer or the framebuffer (R22, R25, R33). -/
def touchesAltered : Instr → Bool
  | .cls | .rnd _ _ | .drw _ _ _ | .skp _ | .sknp _ | .ldStVx _ => true
  | _ => false

/-- Every other instruction reads none of the three and leaves all three alone. -/
theorem exec_alter {i : Instr} (hi : touchesAltered i = false) (h : exec i s = .next t) :
    exec i (s.alter fp fst ffb) = .next (t.alter fp fst ffb) := by
  cases i with
  | ret =>
    by_cases hs : s.sp.val = 0
    · exact alter_of_answer h (execRet_empty s hs) (execRet_empty (s.alter fp fst ffb) hs)
    · exact alter_of_answer h (execRet_ok s hs) (execRet_ok (s.alter fp fst ffb) hs)
  | call nnn =>
    by_cases hs : s.sp.val < 16
    · exact alter_of_answer h (execCall_ok nnn s hs) (execCall_ok nnn (s.alter fp fst ffb) hs)
    · have hfull : s.sp.val = 16 := by omega
      exact alter_of_answer h (execCall_full nnn s hfull) (execCall_full nnn (s.alter fp fst ffb) hfull)
  | ldB x =>
    by_cases hs : s.i.toNat + (decimalDigits (s.getV x)).length ≤ 4096
    · exact alter_of_answer h (execLdB_ok x s hs) (execLdB_ok x (s.alter fp fst ffb) hs)
    · exact alter_of_answer h (execLdB_fault x s hs) (execLdB_fault x (s.alter fp fst ffb) hs)
  | ldMemVx x =>
    by_cases hs : s.i.toNat + x.val < 4096
    · exact alter_of_answer h (execLdMemVx_ok x s hs) (execLdMemVx_ok x (s.alter fp fst ffb) hs)
    · exact alter_of_answer h (execLdMemVx_fault x s hs) (execLdMemVx_fault x (s.alter fp fst ffb) hs)
  | ldVxMem x =>
    by_cases hs : s.i.toNat + x.val < 4096
    · refine alter_of_answer h (execLdVxMem_ok x s hs) ((execLdVxMem_ok x (s.alter fp fst ffb) hs).trans ?_)
      simp only [State.alter, State.setVUpTo]
    · exact alter_of_answer h (execLdVxMem_fault x s hs) (execLdVxMem_fault x (s.alter fp fst ffb) hs)
  | cls | rnd | drw | skp | sknp | ldStVx => cases hi
  | _ => obtain rfl := Host.Outcome.next.inj h; rfl

end

/-- Settles O50: the three instructions named are the only ones that sample the level inputs. -/
theorem inputsReachOnlyTheirThreeInstructions : Obligations.InputsReachOnlyTheirThreeInstructions := by
  intro i s t p hskp hsknp hrnd h
  cases i with
  | skp x => exact absurd rfl (hskp x)
  | sknp x => exact absurd rfl (hsknp x)
  | rnd x kk => exact absurd rfl (hrnd x kk)
  | drw => exact exec_drw_alter (fp := fun _ => p) (fst := id) h
  | cls | ldStVx => obtain rfl := Host.Outcome.next.inj h; rfl
  | _ => exact exec_alter (fp := fun _ => p) (fst := id) (ffb := id) rfl h

/-- Settles O51: what `Fx18` leaves does not depend on the old `st`, and no other instruction looks at it. -/
theorem soundTimerIsNeverRead : Obligations.SoundTimerIsNeverRead := by
  intro i s t b h
  cases i with
  | drw => exact exec_drw_alter (fp := id) (fst := fun _ => b) h
  | cls | ldStVx | skp | sknp | rnd => obtain rfl := Host.Outcome.next.inj h; rfl
  | _ => exact exec_alter (fp := id) (fst := fun _ => b) (ffb := id) rfl h

/-- Settles O52: what `00E0` leaves does not depend on the old framebuffer, and apart from `Dxyn` no other
instruction looks at it. -/
theorem framebufferIsReadOnlyByDraw : Obligations.FramebufferIsReadOnlyByDraw := by
  intro i s t f hdrw h
  cases i with
  | drw x y n => exact absurd rfl (hdrw x y n)
  | cls | ldStVx | skp | sknp | rnd => obtain rfl := Host.Outcome.next.inj h; rfl
  | _ => exact exec_alter (fp := id) (fst := id) (ffb := fun _ => f) rfl h

end Sys2Proof.Machine
end

section
/-! PROOFS. The events and the run state (R26, R27, R34): what each event does to it, and what `Reset` leaves. -/

namespace Sys2Proof.Machine

/-- Settles O14: `Reset` answers `State.resetEvent`, whose fields are those of R34. -/
theorem resetEventRestoresEveryValue : Obligations.ResetEventRestoresEveryValue := by
  intro s rest h
  have hzero (r : Reg) : (Vector.replicate 16 (0 : Byte))[r.val] = 0 := Vector.getElem_replicate _
  have hslot (k : Fin 16) : (Vector.replicate 16 (0 : Word))[k.val] = 0 := Vector.getElem_replicate _
  exact ⟨_, step_of_inbox h, hzero, rfl, rfl, rfl, hslot, rfl, rfl, pixel_clear, rfl, rfl, fun _ => rfl, rfl, rfl⟩

/-- What an instruction cycle that answers a next state has done: a fetch beyond memory (R81), a word that is no
instruction (R83), or an instruction executed (R80). -/
theorem cycle_cases {s t : State} (h : s.cycle = .next t) :
    (4096 ≤ s.pc.toNat + 1 ∧ t = s.enterFault .addressOutOfRange s.pc none) ∨
    (∃ w e, Fetches s w ∧ decode w = .error e ∧
      t = s.advancePc.enterFault .unimplementedOpcode s.pc (some w)) ∨
    ∃ w i, Fetches s w ∧ decode w = .ok i ∧ exec i s.advancePc = .next t := by
  by_cases hpc : s.pc.toNat + 1 < 4096
  · have hw : Fetches s _ := ⟨hpc, rfl⟩
    rw [cycle_word hw] at h
    cases hd : decode (s.mem.read s.pc.toNat ++ s.mem.read (s.pc.toNat + 1)) with
    | error e =>
      rw [dispatchWord_error hd] at h
      exact .inr (.inl ⟨_, e, hw, hd, (Host.Outcome.next.inj h).symm⟩)
    | ok i =>
      rw [dispatchWord_ok hd] at h
      exact .inr (.inr ⟨_, i, hw, hd, h⟩)
  · have hbeyond : 4096 ≤ s.pc.toNat + 1 := Nat.not_lt.1 hpc
    rw [cycle_beyond hbeyond] at h
    exact .inl ⟨hbeyond, (Host.Outcome.next.inj h).symm⟩

/-- An instruction that completes leaves the fault record, and, but for `Fx0A`, the run state (R27). -/
theorem Completes.run_eq {i : Instr} {s t : State} (h : Completes s t i) :
    t.fault = s.fault ∧ ((∀ x, i ≠ .ldVxK x) → t.runState = s.runState) := by
  cases i with
  | ldVxK x => obtain rfl := h; exact ⟨rfl, fun hi => absurd rfl (hi x)⟩
  | addReg | subReg | subnReg | shr | shl => obtain ⟨_, _, rfl⟩ := h; simp
  | ldImm | addImm | ldReg | orReg | andReg | xorReg | rnd | ldVxDt | ldI | addI | ldF | ret | call | ldB | ldMemVx
  | ldVxMem => obtain ⟨_, rfl⟩ := h; simp
  | _ => obtain rfl := h; simp

/-! Taking the next event changes nothing that a statement about the core looks at. -/

theorem takeEvent_runState (s : State) : s.takeEvent.2.runState = s.runState := by
  obtain ⟨_, _, _, hu⟩ := takeEvent_cases s
  rw [hu]

theorem fetches_takeEvent (s : State) (w : Word) : Fetches s.takeEvent.2 w ↔ Fetches s w := by
  obtain ⟨_, _, _, hu⟩ := takeEvent_cases s
  rw [hu]
  exact Iff.rfl

section
variable {s t : State}

/-- A `Load` that is answered was the first event after `Reset` (R50). -/
theorem loadEvent_cases {bytes : List Byte} (h : loadEvent bytes s = .next t) :
    s.fresh = true ∧ t = s.beginEvent.loadImage bytes := by
  cases hf : s.fresh with
  | true => exact ⟨rfl, Host.Outcome.next.inj (h.symm.trans (loadEvent_fresh bytes hf))⟩
  | false => cases h.symm.trans (loadEvent_late bytes hf)

/-- A cycle that fetches `Fx0A` begins a wait (R162). -/
theorem cycle_runState_of_keyWait {w : Word} {x : Reg} (h : s.cycle = .next t) (hw : Fetches s w)
    (hd : decode w = .ok (.ldVxK x)) : t.runState = .awaitingKey x := by
  rw [cycle_word hw, dispatchWord_ok hd] at h
  obtain rfl := Host.Outcome.next.inj h
  rfl

/-- A cycle that does not fetch `Fx0A` goes on running or faults (R27). -/
theorem cycle_runState_of_not_keyWait (h : s.cycle = .next t) (hs : s.runState = .running)
    (hk : ¬∃ w x, Fetches s w ∧ decode w = .ok (.ldVxK x)) : t.runState = .running ∨ t.runState = .faulted := by
  obtain ⟨-, rfl⟩ | ⟨w, e, -, -, rfl⟩ | ⟨w, i, hw, hd, hi⟩ := cycle_cases h
  · exact .inr rfl
  · exact .inr rfl
  · obtain ⟨kind, -, rfl⟩ | hc := exec_cases hi
    · exact .inr rfl
    · obtain ⟨-, hkeep⟩ := hc.run_eq
      exact .inl ((hkeep fun x hx => hk ⟨w, x, hw, hx ▸ hd⟩).trans hs)

/-- A program image that does not fit faults; one that fits leaves the run state (R50, R171). -/
theorem loadImage_runState (s : State) (bytes : List Byte) :
    (s.loadImage bytes).runState = if bytes.length ≤ 3584 then s.runState else .faulted := by
  have hfits : imageFits bytes = true ↔ bytes.length ≤ 3584 := (imageFits_iff bytes).trans (by omega)
  rw [State.loadImage]
  simp only [hfits]
  split <;> rfl

/-- A key press ends a wait, and leaves any other run state (R163). -/
theorem keyPress_runState_awaiting {r : Reg} (k : Nibble) (h : s.runState = .awaitingKey r) :
    (s.keyPress k).runState = .running := by
  rw [keyPress_awaiting k h]

theorem keyPress_runState_other (k : Nibble) (h : s.runState = .running ∨ s.runState = .faulted) :
    (s.keyPress k).runState = s.runState := by
  rw [keyPress_other k h]

end

/-- Settles O55, event by event. -/
theorem runStateFollowsItsTransitions : Obligations.RunStateFollowsItsTransitions := by
  intro s t h
  have hrun := takeEvent_runState s
  have handled {e : HostEvent} (he : s.takeEvent.1 = e) : handleEvent e s.takeEvent.2 = .next t := he ▸ h
  refine ⟨fun p he hs => ?_, fun p he hs => ?_, fun k r he hs => ?_, fun k he hs => ?_, fun he => ?_, fun he => ?_,
    fun bytes he => ?_⟩
  · have hc := (stepEvent_running p (hrun.trans hs)).symm.trans (handled he)
    refine ⟨fun w x hw hd => cycle_runState_of_keyWait hc ((fetches_takeEvent s w).2 hw) hd, fun hk => ?_⟩
    refine cycle_runState_of_not_keyWait hc (hrun.trans hs) fun ⟨w, x, hw, hd⟩ => ?_
    exact hk ⟨w, x, (fetches_takeEvent s w).1 hw, hd⟩
  · obtain rfl := Host.Outcome.next.inj ((stepEvent_other p (hrun ▸ hs)).symm.trans (handled he))
    exact hrun
  · obtain rfl := Host.Outcome.next.inj (handled he)
    exact keyPress_runState_awaiting k (hrun.trans hs)
  · obtain rfl := Host.Outcome.next.inj (handled he)
    exact (keyPress_runState_other (s := s.takeEvent.2.beginEvent) k (hs.imp hrun.trans hrun.trans)).trans hrun
  · obtain rfl := Host.Outcome.next.inj (handled he)
    exact hrun
  · obtain rfl := Host.Outcome.next.inj (handled he)
    rfl
  · obtain ⟨-, ht⟩ := loadEvent_cases (handled he)
    rw [ht, loadImage_runState, beginEvent_runState, hrun]

end Sys2Proof.Machine
end

section
/-! PROOFS. The invariant of the machine (R15, R18, R26, R28, R170): it holds after `Reset`, and every step keeps
it. -/

namespace Sys2Proof.Machine

/-- Settles O59: after `Reset` memory lists nothing, the slots are zero and nothing has faulted. -/
theorem resetMeetsTheInvariant : Obligations.ResetMeetsTheInvariant := fun events n =>
  { memCanonical := rfl
    faultedIffRecord := ⟨nofun, nofun⟩
    recordFits := fun _ h => nomatch h
    recordPc := fun _ h => nomatch h
    pcBound := show (0x0200 : Word).toNat ≤ 0x10FE by decide
    slotBound := fun k => by simp [State.reset]
    freshIsReset := fun _ => rfl }

/-- What the invariant says of a state in which an event has been handled, faults apart. -/
structure State.Bounded (s : State) : Prop where
  memCanonical : s.mem.wf = true
  pcBound : s.pc.toNat ≤ 0x10FE
  slotBound : ∀ k : Fin 16, s.stack[k.val].toNat ≤ 0x1000
  notFresh : s.fresh = false

section
variable {s t : State}

/-- Such a state meets the invariant when it has neither the run state nor the record of a fault. -/
theorem State.Bounded.inv_of_noFault (h : s.Bounded) (hrun : s.runState ≠ .faulted) (hfault : s.fault = none) :
    s.Inv where
  memCanonical := h.memCanonical
  faultedIffRecord := by simp [hrun, hfault]
  recordFits f hf := by simp [hfault] at hf
  recordPc f hf := by simp [hfault] at hf
  pcBound := h.pcBound
  slotBound := h.slotBound
  freshIsReset hf := absurd (h.notFresh.symm.trans hf) nofun

/-- Taking a fault from such a state gives the invariant when the record fits its kind and `pc` stands where the
record says (R81, R87, R170). -/
theorem State.Bounded.inv_enterFault (h : s.Bounded) {kind : FaultKind} {pc : Word} {opcode : Option Word}
    (hfits : FaultRecord.fits { kind := kind, pc := pc, opcode := opcode })
    (hpc : s.pc = if opcode.isSome then pc + 2 else pc) : (s.enterFault kind pc opcode).Inv where
  memCanonical := h.memCanonical
  faultedIffRecord := by simp
  recordFits f hf := by obtain rfl := Option.some.inj hf; exact hfits
  recordPc f hf := by obtain rfl := Option.some.inj hf; exact hpc
  pcBound := h.pcBound
  slotBound := h.slotBound
  freshIsReset hf := absurd (h.notFresh.symm.trans hf) nofun

/-- The record of an execute-stage fault fits its kind: the word is that of an instruction which can raise it. -/
theorem fits_of_executeFault {i : Instr} {kind : FaultKind} (pc : Word) (h : executeFault i = some kind) :
    FaultRecord.fits { kind := kind, pc := pc, opcode := some (encode i) } := by
  cases i with
  | call nnn => obtain rfl := Option.some.inj h; exact ⟨nnn, rfl⟩
  | ret => obtain rfl := Option.some.inj h; rfl
  | drw | ldB | ldMemVx | ldVxMem => obtain rfl := Option.some.inj h; exact .inr ⟨_, rfl, h⟩
  | _ => cases h

/-! ### What an instruction that completes keeps -/

theorem zext16_le (nnn : Addr12) : (zext16 nnn).toNat ≤ 0xFFF := by
  have := nnn.isLt
  rw [zext16, BitVec.toNat_setWidth]
  omega

theorem jumpV0Target_le (s : State) (nnn : Addr12) : (s.jumpV0Target nnn).toNat ≤ 0x10FE := by
  have := nnn.isLt
  have := (s.getV 0).isLt
  rw [State.jumpV0Target, BitVec.toNat_ofNat]
  omega

theorem toNat_add_two_le {a : Word} {n : Nat} (h : a.toNat ≤ n) : (a + 2).toNat ≤ n + 2 := by
  rw [BitVec.toNat_add]
  exact (Nat.mod_le _ _).trans (Nat.add_le_add_right h 2)

theorem skipIf_pc_le {n : Nat} (c : Bool) (h : s.pc.toNat ≤ n) : (s.skipIf c).pc.toNat ≤ n + 2 := by
  rw [skipIf_pc]
  split
  · exact toNat_add_two_le h
  · omega

/-- An instruction executed with `pc` at most 0x1000, as it is after a fetch, leaves `pc` at most 0x10FE: the
farthest target is that of `Bnnn` (R15). -/
theorem Completes.pc_le {i : Instr} (h : Completes s t i) (hpc : s.pc.toNat ≤ 0x1000)
    (hslots : ∀ k : Fin 16, s.stack[k.val].toNat ≤ 0x1000) : t.pc.toNat ≤ 0x10FE := by
  have hkeep := h.writesOnlyItsOwn.pc
  cases i with
  | ret =>
    obtain ⟨hsp, rfl⟩ := h
    exact (hslots ⟨s.sp.val - 1, by omega⟩).trans (by decide)
  | jp nnn =>
    obtain rfl := h
    exact (zext16_le nnn).trans (by decide)
  | call nnn =>
    obtain ⟨_, rfl⟩ := h
    exact (zext16_le nnn).trans (by decide)
  | jpV0 nnn =>
    obtain rfl := h
    exact jumpV0Target_le s nnn
  | seImm | sneImm | seReg | sneReg | skp | sknp =>
    obtain rfl := h
    exact (skipIf_pc_le _ hpc).trans (by decide)
  | _ =>
    rw [hkeep rfl]
    exact hpc.trans (by decide)

/-- Only `2nnn` writes a slot, and it pushes `pc` (R18, R102). -/
theorem Completes.slot_le {i : Instr} (h : Completes s t i) (hpc : s.pc.toNat ≤ 0x1000)
    (hslots : ∀ k : Fin 16, s.stack[k.val].toNat ≤ 0x1000) (k : Fin 16) : t.stack[k.val].toNat ≤ 0x1000 := by
  have hkeep := h.writesOnlyItsOwn.stack
  cases i with
  | call nnn =>
    obtain ⟨hsp, rfl⟩ := h
    simp only [Vector.getElem_set]
    split
    · exact hpc
    · exact hslots k
  | ret =>
    obtain ⟨_, rfl⟩ := h
    exact hslots k
  | _ =>
    obtain ⟨-, hstack⟩ := hkeep nofun nofun
    rw [hstack]
    exact hslots k

/-- The two stores write inside memory only, which keeps its list canonical (R40, R58). -/
theorem Completes.mem_wf {i : Instr} (h : Completes s t i) (hm : s.mem.wf = true) : t.mem.wf = true := by
  have hkeep := h.writesOnlyItsOwn.mem
  cases i with
  | ldB x =>
    obtain ⟨hspan, rfl⟩ := h
    exact wf_writeList _ _ hspan hm
  | ldMemVx x =>
    obtain ⟨hspan, rfl⟩ := h
    exact wf_writeList _ _ (by rw [blockRegs_length]; omega) hm
  | _ =>
    rw [hkeep nofun nofun]
    exact hm

theorem Completes.bounded {i : Instr} (h : Completes s t i) (hs : s.Bounded) (hpc : s.pc.toNat ≤ 0x1000) :
    t.Bounded where
  memCanonical := h.mem_wf hs.memCanonical
  pcBound := h.pc_le hpc hs.slotBound
  slotBound := h.slot_le hpc hs.slotBound
  notFresh := by
    obtain ⟨-, -, -, hfresh⟩ := h.writesOnlyItsOwn.host
    exact hfresh.trans hs.notFresh

/-- An instruction that completes in `Running` does not leave `Faulted`. -/
theorem Completes.runState_ne_faulted {i : Instr} (h : Completes s t i) (hs : s.runState = .running) :
    t.runState ≠ .faulted := by
  obtain ⟨-, hkeep⟩ := h.run_eq
  cases i with
  | ldVxK x => obtain rfl := h; exact nofun
  | _ => exact ((hkeep nofun).trans hs).trans_ne nofun

/-! ### What each event keeps -/

/-- The execute stage, in `Running` and with `pc` advanced past a word that could be fetched. -/
theorem inv_of_exec {i : Instr} (hs : s.Bounded) (hpc : s.pc.toNat ≤ 0x1000) (hrun : s.runState = .running)
    (hfault : s.fault = none) (h : exec i s = .next t) : t.Inv := by
  obtain ⟨kind, hkind, rfl⟩ | hc := exec_cases h
  · exact hs.inv_enterFault (fits_of_executeFault _ hkind) (by simp)
  · obtain ⟨hrecord, -⟩ := hc.run_eq
    exact (hc.bounded hs hpc).inv_of_noFault (hc.runState_ne_faulted hrun) (hrecord.trans hfault)

/-- After a fetch `pc` is at most 0x1000 (R15, R81). -/
theorem advancePc_le {w : Word} (h : Fetches s w) : s.advancePc.pc.toNat ≤ 0x1000 := by
  obtain ⟨hpc, -⟩ := h
  exact toNat_add_two_le (show s.pc.toNat ≤ 0xFFE by omega)

theorem State.Bounded.advancePc {w : Word} (hs : s.Bounded) (h : Fetches s w) : s.advancePc.Bounded :=
  { hs with pcBound := (advancePc_le h).trans (by decide) }

theorem inv_of_cycle (hs : s.Bounded) (hrun : s.runState = .running) (hfault : s.fault = none)
    (h : s.cycle = .next t) : t.Inv := by
  obtain ⟨hpc, rfl⟩ | ⟨w, e, hw, hd, rfl⟩ | ⟨w, i, hw, -, hi⟩ := cycle_cases h
  · exact hs.inv_enterFault (.inl ⟨rfl, show 0xFFF ≤ s.pc.toNat by omega⟩) rfl
  · exact (hs.advancePc hw).inv_enterFault ⟨w, rfl, legalWord_of_decode_error hd⟩ rfl
  · exact inv_of_exec (hs.advancePc hw) (advancePc_le hw) hrun hfault hi

theorem State.Inv.fault_eq_none (h : s.Inv) (hrun : s.runState ≠ .faulted) : s.fault = none := by
  simpa [hrun] using h.faultedIffRecord

theorem State.Inv.beginEvent (h : s.Inv) : s.beginEvent.Inv := { h with freshIsReset := nofun }

theorem State.Inv.beginEvent_bounded (h : s.Inv) : s.beginEvent.Bounded := { h with notFresh := rfl }

theorem State.Inv.timerTick (h : s.Inv) (hf : s.fresh = false) : s.timerTick.Inv :=
  { h with freshIsReset := fun hf' => absurd (hf.symm.trans hf') nofun }

/-- The end of a wait is no fault; elsewhere a key press does nothing (R163, D22). -/
theorem State.Inv.keyPress (h : s.Inv) (hf : s.fresh = false) (k : Nibble) : (s.keyPress k).Inv := by
  cases hrun : s.runState with
  | awaitingKey r =>
    rw [keyPress_awaiting k hrun]
    have hb : State.Bounded { s.setV r (zext8 k) with runState := .running } := { h with notFresh := hf }
    exact hb.inv_of_noFault nofun (h.fault_eq_none (by simp [hrun]))
  | running => rwa [keyPress_other k (.inl hrun)]
  | faulted => rwa [keyPress_other k (.inr hrun)]

/-- A `Load` right after `Reset` copies an image inside memory, or faults with `pc` still at 0x200 (R50, R171). -/
theorem State.Inv.loadImage (h : s.Inv) (hf : s.fresh = true) (bytes : List Byte) :
    (s.beginEvent.loadImage bytes).Inv := by
  have hreset := h.freshIsReset hf
  have hb := h.beginEvent_bounded
  by_cases hfits : imageFits bytes = true
  · rw [State.loadImage, if_pos hfits]
    have hlen : 0x200 + bytes.length ≤ 4096 := by
      have := (imageFits_iff bytes).1 hfits
      omega
    have hb' : State.Bounded { s.beginEvent with mem := s.mem.writeList Config.progBase bytes } :=
      { hb with memCanonical := wf_writeList bytes _ hlen h.memCanonical }
    have hrun : s.runState = .running := congrArg State.runState hreset
    exact hb'.inv_of_noFault (hrun.trans_ne nofun) (congrArg State.fault hreset)
  · rw [State.loadImage, if_neg hfits]
    exact hb.inv_enterFault ⟨rfl, rfl⟩ (congrArg State.pc hreset)

/-- Handling any event keeps the invariant. -/
theorem inv_of_handleEvent (e : HostEvent) (hs : s.Inv) (h : handleEvent e s = .next t) : t.Inv := by
  cases e with
  | reset =>
    obtain rfl := Host.Outcome.next.inj h
    exact resetMeetsTheInvariant s.inbox s.draws
  | load bytes =>
    obtain ⟨hf, ht⟩ := loadEvent_cases h
    rw [ht]
    exact hs.loadImage hf bytes
  | step p =>
    by_cases hrun : s.runState = .running
    · have hb : State.Bounded { s.beginEvent with ports := p } := { hs.beginEvent_bounded with }
      exact inv_of_cycle hb hrun (hs.fault_eq_none (by simp [hrun])) ((stepEvent_running p hrun).symm.trans h)
    · obtain rfl := Host.Outcome.next.inj ((stepEvent_other p hrun).symm.trans h)
      exact hs.beginEvent
  | timerTick =>
    obtain rfl := Host.Outcome.next.inj h
    exact hs.beginEvent.timerTick rfl
  | keyPress k =>
    obtain rfl := Host.Outcome.next.inj h
    exact hs.beginEvent.keyPress rfl k

/-- Taking an event off the inbox keeps the invariant, which leaves the host's events open. -/
theorem State.Inv.takeEvent (h : s.Inv) : s.takeEvent.2.Inv := by
  obtain ⟨e, ib, d, hu⟩ := takeEvent_cases s
  rw [hu]
  exact { h with freshIsReset := fun hf => by rw [h.freshIsReset hf] }

end

/-- Settles O58: taking the next event keeps the invariant, and so does handling it, whichever it is. -/
theorem stepKeepsTheInvariant : Obligations.StepKeepsTheInvariant :=
  fun s _ hs h => inv_of_handleEvent s.takeEvent.1 hs.takeEvent h

end Sys2Proof.Machine
end

section
/-! PROOFS. Memory (20_memory.md R40 to R58): its contents after `Reset`, `Load`, what the stores leave for a later
fetch, and accesses beyond its end. -/

namespace Sys2Proof.Machine

/-! ### Contents after `Reset` (R46 to R49) -/

/-- Outside the 80 bytes of the font table an address reads `MEM_INIT`, which is zero (R49). -/
theorem resetByte_outside_font {a : Nat} (h : a < 0x050 ∨ 0x0A0 ≤ a) : resetByte a = 0 := by
  have hbase : Params.fontBase = 0x050 := rfl
  have hlen : Params.fontTable.length = 80 := rfl
  rw [resetByte_eq, dif_neg (by omega)]
  rfl

/-- Settles O15: the glyphs are read off the table, and the other addresses lie outside it. -/
theorem resetMemoryHoldsTheFont : Obligations.ResetMemoryHoldsTheFont :=
  ⟨by decide, fun _ => resetByte_outside_font⟩

/-! ### `Load` (R50) -/

/-- A `Load` right after `Reset` takes the image (R50, D24). -/
theorem step_load {s : State} {bytes : List Byte} {rest : List HostEvent} (hfresh : s.fresh = true)
    (hinbox : s.inbox = .load bytes :: rest) :
    step s = .next (({ s with inbox := rest }).beginEvent.loadImage bytes) :=
  (step_of_inbox hinbox).trans (loadEvent_fresh bytes hfresh)

/-- An image that fits is copied from 0x200 upwards (R50). -/
theorem loadImage_fits (s : State) {bytes : List Byte} (h : bytes.length + 0x200 ≤ 4096) :
    s.loadImage bytes = { s with mem := s.mem.writeList 0x200 bytes } := by
  rw [State.loadImage, if_pos ((imageFits_iff bytes).2 h)]

/-- An image that does not fit is the fault `LoadError`, and nothing is copied (R50, R171). -/
theorem loadImage_oversized (s : State) {bytes : List Byte} (h : 4096 < bytes.length + 0x200) :
    s.loadImage bytes = s.enterFault .loadError 0x0200 none := by
  have hnot : ¬imageFits bytes = true := fun hfits => Nat.not_le.2 h ((imageFits_iff bytes).1 hfits)
  rw [State.loadImage, if_neg hnot]
  rfl

/-- Settles O16: the copy reads back inside the image and leaves the bytes outside it. -/
theorem loadCopiesTheImage : Obligations.LoadCopiesTheImage := by
  intro s bytes rest hwf hfresh hinbox hfits
  have hstep := step_load hfresh hinbox
  rw [loadImage_fits _ hfits] at hstep
  refine ⟨_, hstep, fun k hk => ?_, fun c hc => ?_, fun _ _ => rfl, rfl, rfl,
    ⟨rfl, rfl⟩, ⟨rfl, rfl⟩, rfl, ⟨rfl, rfl⟩, ⟨rfl, rfl⟩, rfl⟩
  · exact read_writeList_inside bytes 0x200 k hk (by omega) hwf
  · exact read_writeList_outside bytes s.mem 0x200 hc

/-- Settles O17: the fault is taken from the state before the copy. -/
theorem oversizedLoadFaultsAndWritesNothing : Obligations.OversizedLoadFaultsAndWritesNothing := by
  intro s bytes rest hfresh hinbox hlong
  have hstep := step_load hfresh hinbox
  rw [loadImage_oversized _ hlong] at hstep
  exact ⟨_, hstep, rfl, rfl, rfl,
    ⟨fun _ _ => rfl, rfl, ⟨rfl, rfl⟩, rfl, fun _ => rfl⟩, ⟨rfl, rfl⟩, ⟨rfl, rfl⟩, rfl⟩

/-! ### Which steps are answered (R30, R50) -/

/-- An instruction cycle always answers a next state: the fetch and the dispatch take their faults as next
states (log 8). -/
theorem cycle_next (s : State) : ∃ t, s.cycle = .next t := by
  by_cases hpc : s.pc.toNat + 1 < 4096
  · rw [cycle_word ⟨hpc, rfl⟩]
    cases hd : decode (s.mem.read s.pc.toNat ++ s.mem.read (s.pc.toNat + 1)) with
    | error e => exact ⟨_, dispatchWord_error hd⟩
    | ok i => exact dispatchWord_ok hd ▸ exec_next i s.advancePc
  · exact ⟨_, cycle_beyond (Nat.not_lt.1 hpc)⟩

/-- Every event but a late `Load` is answered by a next state. -/
theorem handleEvent_next {e : HostEvent} {s : State} (h : s.fresh = true ∨ ∀ bytes, e ≠ .load bytes) :
    ∃ t, handleEvent e s = .next t := by
  cases e with
  | load bytes =>
    have hfresh : s.fresh = true := h.resolve_right fun hne => hne bytes rfl
    exact ⟨_, loadEvent_fresh bytes hfresh⟩
  | step p =>
    by_cases hrun : s.runState = .running
    · rw [handleEvent, stepEvent_running p hrun]
      exact cycle_next _
    · exact ⟨_, stepEvent_other p hrun⟩
  | reset | timerTick | keyPress => exact ⟨_, rfl⟩

theorem takeEvent_fresh (s : State) : s.takeEvent.2.fresh = s.fresh := by
  obtain ⟨_, _, _, hu⟩ := takeEvent_cases s
  rw [hu]

/-- Settles O56: the one event that is refused is a `Load` that comes late. -/
theorem stepAnswersUnlessLoadIsLate : Obligations.StepAnswersUnlessLoadIsLate := by
  refine fun s => ⟨fun hlate hload => ?_, fun h => ?_⟩
  · obtain ⟨bytes, he⟩ := hload
    rw [step, he]
    exact loadEvent_late bytes ((takeEvent_fresh s).trans hlate)
  · exact handleEvent_next (h.imp_left (takeEvent_fresh s).trans)

/-! ### Instructions that store, and accesses beyond memory (R42, R56, R58) -/

/-- Settles O47: the memory line of the writer table. -/
theorem onlyTheTwoStoresChangeMemory : Obligations.OnlyTheTwoStoresChangeMemory := by
  intro i s t h hldB hldMemVx a
  rw [(exec_writesOnlyItsOwn h).mem hldB hldMemVx]

/-- A block of registers stored inside memory reads back register by register (R144). -/
theorem read_writeList_blockRegs {s : State} {x k : Reg} (hwf : s.mem.wf = true)
    (hspan : s.i.toNat + x.val < 4096) (hk : k ≤ x) :
    (s.mem.writeList s.i.toNat (s.blockRegs x)).read (s.i.toNat + k.val) = s.getV k := by
  have hlen := blockRegs_length s x
  have hkx : k.val < (s.blockRegs x).length := by rw [Fin.le_def] at hk; omega
  rw [read_writeList_inside (s.blockRegs x) s.i.toNat k.val hkx (by omega) hwf]
  exact blockRegs_getElem s x k.val hkx

/-- Settles O39: a fetch reads the same memory the store wrote. -/
theorem storedBytesAreFetched : Obligations.StoredBytesAreFetched := by
  intro x k k' s t hwf hspan hnext hle h hpc
  obtain rfl := Host.Outcome.next.inj ((execLdMemVx_ok x s hspan).symm.trans h)
  have hlast : k'.val ≤ x.val := hle
  have hhigh := read_writeList_blockRegs (k := k) hwf hspan (Fin.le_def.2 (by omega))
  have hlow := read_writeList_blockRegs hwf hspan hle
  have hnext' : s.effAddr k.val + 1 = s.i.toNat + k'.val := by rw [hnext]; rfl
  rw [Fetches, hpc, hnext']
  exact ⟨(Nat.add_le_add_left hlast _).trans_lt hspan, congrArg₂ _ hhigh.symm hlow.symm⟩

/-- Settles O38: each of the four instructions is outside the range in which it completes. -/
theorem outOfRangeAccessHasNoEffect : Obligations.OutOfRangeAccessHasNoEffect := by
  refine fun x y n s => ⟨fun hn hrange => ?_, fun hrange => ?_, fun hrange => ?_, fun hrange => ?_⟩
  · have hout : ¬(n = 0 ∨ s.i.toNat + n.toNat ≤ 4096) := not_or.2 ⟨hn, Nat.not_le.2 hrange⟩
    exact ⟨_, execDrw_fault x y n s hout, faultTaken_raise s _ _⟩
  · rw [← decimalDigits_length] at hrange
    exact ⟨_, execLdB_fault x s (Nat.not_le.2 hrange), faultTaken_raise s _ _⟩
  · exact ⟨_, execLdMemVx_fault x s (Nat.not_lt.2 hrange), faultTaken_raise s _ _⟩
  · exact ⟨_, execLdVxMem_fault x s (Nat.not_lt.2 hrange), faultTaken_raise s _ _⟩

end Sys2Proof.Machine
end

section
/-! PROOFS. The decoder and the encoder are inverse to each other, and the decoding procedure of R65 is the match and
mask table of R64 (30_encoding.md R60 to R67). -/

namespace Sys2Proof

/-! ### Decoding what was encoded (R60 to R63) -/

/-- Decoding is a left inverse of encoding: the digits on which the decoder branches, and the operands it then reads,
are the fields the format of R62 put there. -/
@[simp] theorem decode_encode (i : Instr) : decode (encode i) = .ok i := by
  cases i with
  | cls | ret => rfl
  | jp | call | ldI | jpV0 =>
    rw [encode, decode, fieldN0_wordNNN, fieldNNN_wordNNN]
    rfl
  | seImm | sneImm | ldImm | addImm | rnd =>
    rw [encode, decode, fieldN0_wordXKK, fieldX_wordXKK, fieldKK_wordXKK]
    rfl
  | seReg | sneReg | drw =>
    rw [encode, decode, fieldN0_wordXYN, fieldX_wordXYN, fieldY_wordXYN, fieldN_wordXYN]
    rfl
  | ldReg | orReg | andReg | xorReg | addReg | subReg | shr | subnReg | shl =>
    rw [encode, decode, fieldN0_wordXYN, decodeGroup8, fieldX_wordXYN, fieldY_wordXYN, fieldN_wordXYN]
    rfl
  | skp | sknp =>
    rw [encode, decode, fieldN0_wordXKK, fieldX_wordXKK, fieldKK_wordXKK]
    rfl
  | ldVxDt | ldVxK | ldDtVx | ldStVx | addI | ldF | ldB | ldMemVx | ldVxMem =>
    rw [encode, decode, fieldN0_wordXKK, decodeGroupF, fieldX_wordXKK, fieldKK_wordXKK]
    rfl

/-- Settles O1: the two bytes are put together to the word again, and the word decodes to its instruction. -/
theorem decodeReadsBackEveryEncoding : Obligations.DecodeReadsBackEveryEncoding := by
  intro i rest
  rw [encodeBytes, List.cons_append, List.cons_append, decodeBytes, wordOfBytes_bytes, decode_encode]
  rfl

/-! ### Encoding what was decoded (R64 to R66)

A word is the word in each format of its own fields; here the digits the decoder has compared are given by their
values, as its branches give them. -/

theorem wordNNN_eq_of_digit {w : Word} {a : Nibble} (ha : (fieldN0 w).toNat = a.toNat) :
    wordNNN a (fieldNNN w) = w := by
  rw [← BitVec.eq_of_toNat_eq ha, wordNNN_fields]

theorem wordXKK_eq_of_digit {w : Word} {a : Nibble} (ha : (fieldN0 w).toNat = a.toNat) :
    wordXKK a (regField (fieldX w)) (fieldKK w) = w := by
  rw [← BitVec.eq_of_toNat_eq ha, wordXKK_fields]

theorem wordXKK_eq_of_digits {w : Word} {a : Nibble} {kk : Byte} (ha : (fieldN0 w).toNat = a.toNat)
    (hkk : (fieldKK w).toNat = kk.toNat) : wordXKK a (regField (fieldX w)) kk = w := by
  rw [← BitVec.eq_of_toNat_eq hkk, wordXKK_eq_of_digit ha]

theorem wordXYN_eq_of_digit {w : Word} {a : Nibble} (ha : (fieldN0 w).toNat = a.toNat) :
    wordXYN a (regField (fieldX w)) (regField (fieldY w)) (fieldN w) = w := by
  rw [← BitVec.eq_of_toNat_eq ha, wordXYN_fields]

theorem wordXYN_eq_of_digits {w : Word} {a d : Nibble} (ha : (fieldN0 w).toNat = a.toNat)
    (hd : (fieldN w).toNat = d.toNat) : wordXYN a (regField (fieldX w)) (regField (fieldY w)) d = w := by
  rw [← BitVec.eq_of_toNat_eq hd, wordXYN_eq_of_digit ha]

/-- An answer of the decoder that accounts for the word `w`: an instruction whose encoding is `w`, or the refusal
that names `w`. -/
def AccountsFor (w : Word) : Except DecodeError Instr → Prop
  | .ok i => encode i = w
  | .error e => e = .unimplemented w

theorem decodeGroup8_accountsFor {w : Word} (h0 : (fieldN0 w).toNat = 0x8) : AccountsFor w (decodeGroup8 w) := by
  rw [decodeGroup8]
  split
  case h_10 => rfl
  all_goals exact wordXYN_eq_of_digits h0 (by assumption)

theorem decodeGroupF_accountsFor {w : Word} (h0 : (fieldN0 w).toNat = 0xF) : AccountsFor w (decodeGroupF w) := by
  rw [decodeGroupF]
  split
  case h_10 => rfl
  all_goals exact wordXKK_eq_of_digits h0 (by assumption)

/-- What the decoder can answer, branch by branch of R65. -/
theorem decode_accountsFor (w : Word) : AccountsFor w (decode w) := by
  rw [decode]
  split
  next =>
    split_ifs with hcls hret
    · exact hcls.symm
    · exact hret.symm
    · rfl
  next h0 => exact wordNNN_eq_of_digit h0
  next h0 => exact wordNNN_eq_of_digit h0
  next h0 => exact wordXKK_eq_of_digit h0
  next h0 => exact wordXKK_eq_of_digit h0
  next h0 =>
    split_ifs with hn
    · exact wordXYN_eq_of_digits h0 (congrArg BitVec.toNat hn)
    · rfl
  next h0 => exact wordXKK_eq_of_digit h0
  next h0 => exact wordXKK_eq_of_digit h0
  next h0 => exact decodeGroup8_accountsFor h0
  next h0 =>
    split_ifs with hn
    · exact wordXYN_eq_of_digits h0 (congrArg BitVec.toNat hn)
    · rfl
  next h0 => exact wordNNN_eq_of_digit h0
  next h0 => exact wordNNN_eq_of_digit h0
  next h0 => exact wordXKK_eq_of_digit h0
  next h0 => exact wordXYN_eq_of_digit h0
  next h0 =>
    split_ifs with hskp hsknp
    · exact wordXKK_eq_of_digits h0 (congrArg BitVec.toNat hskp)
    · exact wordXKK_eq_of_digits h0 (congrArg BitVec.toNat hsknp)
    · rfl
  next =>
    have hlt := (fieldN0 w).isLt
    have h0 : (fieldN0 w).toNat = 0xF := by
      simp only [imp_false] at *
      omega
    exact decodeGroupF_accountsFor h0

/-- Settles O2: an answer `ok i` accounts for the word only if the word is the encoding of `i`. -/
theorem encodeGivesBackEveryDecodedWord : Obligations.EncodeGivesBackEveryDecodedWord :=
  fun w _ h => (h ▸ decode_accountsFor w : AccountsFor w (.ok _))

/-- The only reason to refuse a whole word is that it is no instruction (R65, R67). -/
theorem eq_unimplemented_of_decode_error {w : Word} {e : DecodeError} (h : decode w = .error e) :
    e = .unimplemented w :=
  (h ▸ decode_accountsFor w : AccountsFor w (.error e))

/-! ### The opcode map (R64, R67) -/

open Laws.SelectsItsRow in
/-- Every instruction's encoding selects the instruction's own row of the opcode map. -/
theorem encode_selectsItsRow : ∀ i : Instr, Laws.SelectsItsRow.Statement i
  | .cls => cls
  | .ret => ret
  | .jp nnn => jp nnn
  | .call nnn => call nnn
  | .seImm x kk => seImm x kk
  | .sneImm x kk => sneImm x kk
  | .seReg x y => seReg x y
  | .ldImm x kk => ldImm x kk
  | .addImm x kk => addImm x kk
  | .ldReg x y => ldReg x y
  | .orReg x y => orReg x y
  | .andReg x y => andReg x y
  | .xorReg x y => xorReg x y
  | .addReg x y => addReg x y
  | .subReg x y => subReg x y
  | .shr x y => shr x y
  | .subnReg x y => subnReg x y
  | .shl x y => shl x y
  | .sneReg x y => sneReg x y
  | .ldI nnn => ldI nnn
  | .jpV0 nnn => jpV0 nnn
  | .rnd x kk => rnd x kk
  | .drw x y n => drw x y n
  | .skp x => skp x
  | .sknp x => sknp x
  | .ldVxDt x => ldVxDt x
  | .ldVxK x => ldVxK x
  | .ldDtVx x => ldDtVx x
  | .ldStVx x => ldStVx x
  | .addI x => addI x
  | .ldF x => ldF x
  | .ldB x => ldB x
  | .ldMemVx x => ldMemVx x
  | .ldVxMem x => ldVxMem x

theorem row_selects_of_decode {w : Word} {i : Instr} (h : decode w = .ok i) : i.row.selects w = true := by
  obtain ⟨hsel, -⟩ := encode_selectsItsRow i
  rwa [encodeGivesBackEveryDecodedWord w i h] at hsel

/-- The row of an instruction does not depend on its operands, so it is the row of the sample with its constructor. -/
theorem row_mem_opcodeTable (i : Instr) : i.row ∈ opcodeTable := by
  cases i <;> simp [opcodeTable, sampleInstrs, Instr.row]

/-- Two rows whose matches differ in a bit that both masks compare. -/
def OpcodeRow.Apart (r q : OpcodeRow) : Prop := r.mtch &&& q.mask ≠ q.mtch &&& r.mask

theorem OpcodeRow.not_apart_of_selects {r q : OpcodeRow} {w : Word} (hr : r.selects w = true)
    (hq : q.selects w = true) : ¬r.Apart q := by
  have hr' : w &&& r.mask = r.mtch := beq_iff_eq.1 hr
  have hq' : w &&& q.mask = q.mtch := beq_iff_eq.1 hq
  rw [OpcodeRow.Apart, ← hr', ← hq', BitVec.and_assoc, BitVec.and_assoc, BitVec.and_comm r.mask, not_not]

/-- Any two rows of the opcode map are apart (R64). -/
theorem opcodeTable_pairwise_apart : opcodeTable.Pairwise OpcodeRow.Apart := by
  unfold OpcodeRow.Apart
  decide

/-- A word selects at most one row of the opcode map. -/
theorem opcodeRow_unique {w : Word} {r q : OpcodeRow} (hr : r ∈ opcodeTable) (hq : q ∈ opcodeTable)
    (hrw : r.selects w = true) (hqw : q.selects w = true) : r = q := by
  have hsymm : Std.Symm OpcodeRow.Apart := ⟨fun _ _ h => h.symm⟩
  by_contra hne
  exact OpcodeRow.not_apart_of_selects hrw hqw (opcodeTable_pairwise_apart.forall hr hq hne)

theorem exists_decode_of_legalWord {w : Word} (h : legalWord w = true) : ∃ i, decode w = .ok i := by
  obtain ⟨row, hrow, hsel⟩ := List.any_eq_true.1 h
  obtain ⟨i, -, rfl⟩ := List.mem_map.1 hrow
  exact exists_decode_of_selects i hsel

theorem decode_of_not_legalWord {w : Word} (h : legalWord w = false) : decode w = .error (.unimplemented w) := by
  cases hd : decode w with
  | error e => rw [eq_unimplemented_of_decode_error hd]
  | ok i =>
    have hlegal : legalWord w = true :=
      List.any_eq_true.2 ⟨i.row, row_mem_opcodeTable i, row_selects_of_decode hd⟩
    rw [h] at hlegal
    cases hlegal

/-- Settles O3: the decoded word is an encoding, which selects the row of its instruction, and only one row. -/
theorem decoderFollowsTheOpcodeMap : Obligations.DecoderFollowsTheOpcodeMap := by
  refine fun w => ⟨fun i hi => ?_, exists_decode_of_legalWord, decode_of_not_legalWord⟩
  have hsel := row_selects_of_decode hi
  exact ⟨hsel, fun r hr hrw => opcodeRow_unique hr (row_mem_opcodeTable i) hrw hsel⟩

/-- Settles O4: eighteen evaluations of the decoder. -/
theorem specWordsDecode : Obligations.SpecWordsDecode := by
  unfold Obligations.SpecWordsDecode
  decide

end Sys2Proof
end

section
/-! PROOFS. The `Step` event (40_fetch_decode_execute.md R80 to R88): what it does in each run state with the word it
fetches, the faults of fetch, dispatch and execute, and Steps during a key wait. -/

namespace Sys2Proof.Machine

section
variable {s s' t : State} {p : Ports}

/-! ### The next event is a `Step` (R30, log 1) -/

theorem nextIsStep_of_empty (h : s.inbox = []) :
    NextIsStep s (freePorts s.draws) { s with draws := s.draws + 1 } := by
  rw [NextIsStep, State.takeEvent, h]

theorem nextIsStep_of_inbox {rest : List HostEvent} (h : s.inbox = .step p :: rest) :
    NextIsStep s p { s with inbox := rest } := by
  rw [NextIsStep, State.takeEvent, h]

/-- In `Running` a `Step` is an instruction cycle with its inputs on the ports (R80). -/
theorem step_running (h : NextIsStep s p s') (hrun : s.runState = .running) :
    step s = ({ s'.beginEvent with ports := p }).cycle := by
  obtain ⟨_, _, rfl⟩ := nextIsStep_cases h
  exact (step_of_takeEvent h).trans (stepEvent_running p hrun)

/-- Elsewhere a `Step` only begins the event (R88, D32). -/
theorem step_not_running (h : NextIsStep s p s') (hrun : s.runState ≠ .running) :
    step s = .next s'.beginEvent := by
  obtain ⟨_, _, rfl⟩ := nextIsStep_cases h
  exact (step_of_takeEvent h).trans (stepEvent_other p hrun)

/-- A cycle that fetches an instruction executes it with `pc` advanced (R80, R82). -/
theorem cycle_instr {w : Word} {i : Instr} (hw : Fetches s w) (hd : decode w = .ok i) :
    s.cycle = exec i s.advancePc :=
  (cycle_word hw).trans (dispatchWord_ok hd)

/-- A cycle that fetches a word outside the opcode map faults with `pc` advanced (R83). -/
theorem cycle_undefined {w : Word} (hw : Fetches s w) (hillegal : legalWord w = false) :
    s.cycle = .next (s.advancePc.enterFault .unimplementedOpcode s.pc (some w)) :=
  (cycle_word hw).trans (dispatchWord_error (decode_of_not_legalWord hillegal))

/-- Beginning a `Step` changes no data and no timer and lowers the strobes (R7, R32, R87). -/
theorem beginStep_frame (h : NextIsStep s p s') :
    SameData s s'.beginEvent ∧ SameTimers s s'.beginEvent ∧ Quiet s'.beginEvent ∧
      s'.beginEvent.inbox = s'.inbox := by
  obtain ⟨_, _, rfl⟩ := nextIsStep_cases h
  exact ⟨⟨fun _ _ => rfl, rfl, ⟨rfl, rfl⟩, rfl, fun _ => rfl⟩, ⟨rfl, rfl⟩, ⟨rfl, rfl⟩, rfl⟩

/-! ### The end of a wait, and runs (R163) -/

/-- A `KeyPress` in a wait writes the target register and resumes (R163). -/
theorem step_keyPress_awaiting {r : Reg} {k : Nibble} {rest : List HostEvent} (hwait : s.runState = .awaitingKey r)
    (h : s.inbox = .keyPress k :: rest) :
    step s = .next { ({ s with inbox := rest }).beginEvent.setV r (zext8 k) with runState := .running } :=
  (step_of_inbox h).trans (congrArg _ (keyPress_awaiting (s := ({ s with inbox := rest }).beginEvent) k hwait))

/-- A step of the machine, then the rest of the run. -/
theorem run_succ_of_step (h : step s = .next t) (n : Nat) :
    Host.Core.run Sys2Proof.core (n + 1) s = Host.Core.run Sys2Proof.core n t := by
  have hcore : Sys2Proof.core.step s = .next t := h
  simp only [Host.Core.run, hcore]

end

/-- Settles O12, by induction on the Steps of the wait: each leaves the state waiting with one event less in the
inbox, and the key press then ends the wait. -/
theorem keyWaitLastsUntilTheKeyPress : Obligations.KeyWaitLastsUntilTheKeyPress := by
  intro s r ps k rest hwait hinbox
  induction ps generalizing s with
  | nil =>
    have hkey : (zext8 k).toNat = k.toNat := BitVec.toNat_setWidth_of_le (by decide)
    refine ⟨_, run_succ_of_step (step_keyPress_awaiting hwait hinbox) 0, rfl, rfl, ?_, fun q hq => ?_, rfl, rfl,
      ⟨rfl, rfl⟩, ⟨rfl, rfl⟩, rfl, fun _ => rfl, rfl⟩
    · exact (congrArg BitVec.toNat ((getV_setV s r r _).trans (if_pos rfl))).trans hkey
    · have hne : r ≠ q := fun e => hq (e ▸ List.mem_singleton_self r)
      exact (getV_setV s r q _).trans (if_neg hne)
  | cons p ps ih =>
    have hstep := step_not_running (nextIsStep_of_inbox hinbox) (hwait.trans_ne nofun)
    rw [List.length_cons, run_succ_of_step hstep]
    exact ih _ hwait rfl

/-- Settles O53: an instruction that completes does not leave `Faulted`, so it has raised its fault. -/
theorem executeFaultsArePrecise : Obligations.ExecuteFaultsArePrecise := by
  intro i s t hrun h hfaulted
  obtain ⟨kind, hkind, rfl⟩ | hc := exec_cases h
  · exact ⟨kind, hkind, faultTaken_raise s kind i⟩
  · exact absurd hfaulted (hc.runState_ne_faulted hrun)

/-- Settles O5: taking the event leaves `pc` and memory, so the cycle fetches the word given. -/
theorem stepRunsTheDecodedInstruction : Obligations.StepRunsTheDecodedInstruction := by
  intro s i hrun hpc hd
  have hw : Fetches s _ := ⟨hpc, rfl⟩
  exact ⟨fun h => (step_running (nextIsStep_of_empty h) hrun).trans (cycle_instr hw hd),
    fun p rest h => (step_running (nextIsStep_of_inbox h) hrun).trans (cycle_instr hw hd)⟩

/-- Settles O6: the fault is taken before the fetch advance. -/
theorem fetchBeyondMemoryFaults : Obligations.FetchBeyondMemoryFaults := by
  intro s s' p h hrun hpc
  have hstep := step_running h hrun
  have hframe := beginStep_frame h
  obtain ⟨_, _, rfl⟩ := nextIsStep_cases h
  have hbeyond : 4096 ≤ s.pc.toNat + 1 := Nat.succ_le_succ hpc
  exact ⟨_, hstep.trans (cycle_beyond hbeyond), rfl, rfl, rfl, hframe⟩

/-- Settles O7: the fault is taken at dispatch, after the fetch advance. -/
theorem undefinedWordFaultsAtDispatch : Obligations.UndefinedWordFaultsAtDispatch := by
  intro s s' p w h hrun hw hillegal
  have hstep := step_running h hrun
  have hframe := beginStep_frame h
  obtain ⟨_, _, rfl⟩ := nextIsStep_cases h
  exact ⟨_, hstep.trans (cycle_undefined hw hillegal), rfl, rfl, rfl, hframe⟩

/-- Settles O8: the start of an event writes the strobes and the freshness flag alone. -/
theorem stepDoesNothingUnlessRunning : Obligations.StepDoesNothingUnlessRunning := by
  intro s s' p h hrun
  have hstep := step_not_running h hrun
  have hframe := beginStep_frame h
  obtain ⟨_, _, rfl⟩ := nextIsStep_cases h
  exact ⟨_, hstep, ⟨rfl, rfl⟩, rfl, hframe⟩

end Sys2Proof.Machine
end

section
/-! PROOFS. Control transfer (41_control_flow.md R100 to R104): the jumps, the call, the return, and the round trip of
a call and its return. -/

namespace Sys2Proof.Machine

/-! ### The targets of the jumps (R101, R103) -/

theorem toNat_zext16 (nnn : Addr12) : (zext16 nnn).toNat = nnn.toNat :=
  BitVec.toNat_setWidth_of_le (by decide)

/-- A 12-bit address plus a byte needs no reduction to 16 bits (R103). -/
theorem toNat_jumpV0Target (s : State) (nnn : Addr12) :
    (s.jumpV0Target nnn).toNat = nnn.toNat + (s.getV 0).toNat := by
  have := nnn.isLt
  have := (s.getV 0).isLt
  rw [State.jumpV0Target, BitVec.toNat_ofNat]
  omega

/-! ### What a control transfer leaves unchanged -/

theorem onlyPc_jumpTo (s : State) (target : Word) : OnlyPc s (s.jumpTo target) :=
  ⟨fun _ _ => rfl, rfl, ⟨rfl, rfl⟩, ⟨rfl, rfl⟩, rfl, ⟨rfl, rfl⟩, ⟨rfl, rfl⟩, ⟨rfl, rfl, rfl, rfl⟩, fun _ => rfl⟩

/-- Everything but `pc` and the call stack is unchanged: the frame of a call and of a return (R100, R102). -/
def OnlyPcAndStack (s t : State) : Prop :=
  SameRegsBut [] s t ∧ t.i = s.i ∧ SameTimers s t ∧ SamePixels s t ∧ SameRun s t ∧ SameStrobes s t ∧ SameHost s t ∧
    SameBytes s t

theorem onlyPcAndStack_update (s : State) (stack : Vector Word 16) (sp : Fin 17) (pc : Word) :
    OnlyPcAndStack s { s with stack := stack, sp := sp, pc := pc } :=
  ⟨fun _ _ => rfl, rfl, ⟨rfl, rfl⟩, rfl, ⟨rfl, rfl⟩, ⟨rfl, rfl⟩, ⟨rfl, rfl, rfl, rfl⟩, fun _ => rfl⟩

/-- Settles O18. -/
theorem jumpGoesToItsAddress : Obligations.JumpGoesToItsAddress :=
  fun nnn s => ⟨s.jumpTo (zext16 nnn), rfl, toNat_zext16 nnn, onlyPc_jumpTo s _⟩

/-- Settles O19. -/
theorem jumpWithOffsetAddsV0 : Obligations.JumpWithOffsetAddsV0 :=
  fun nnn s => ⟨s.jumpTo (s.jumpV0Target nnn), rfl, toNat_jumpV0Target s nnn, onlyPc_jumpTo s _⟩

/-- Settles O20: the call writes the slot at `sp` and no other; the fault is taken before the push. -/
theorem callPushesAndJumps : Obligations.CallPushesAndJumps := by
  refine fun nnn s => ⟨fun hroom => ?_, fun hfull => ?_⟩
  · have hslot : (s.stack.set s.sp.val s.pc)[s.sp.val] = s.pc := Vector.getElem_set_self hroom
    have hothers (k : Fin 16) (hk : k.val ≠ s.sp.val) : (s.stack.set s.sp.val s.pc)[k.val] = s.stack[k.val] :=
      Vector.getElem_set_ne hroom k.isLt hk.symm
    exact ⟨_, execCall_ok nnn s hroom, hslot, hothers, rfl, toNat_zext16 nnn, onlyPcAndStack_update s _ _ _⟩
  · exact ⟨_, execCall_full nnn s hfull, faultTaken_raise s _ _⟩

/-- Settles O21: the return reads the slot below `sp` and writes none; the fault is taken before the pop. -/
theorem returnPopsIntoPc : Obligations.ReturnPopsIntoPc := by
  refine fun s => ⟨fun hused => ?_, fun hempty => ?_⟩
  · exact ⟨_, execRet_ok s hused.ne', rfl, rfl, rfl, onlyPcAndStack_update s s.stack _ _⟩
  · exact ⟨_, execRet_empty s hempty, faultTaken_raise s _ .ret⟩

/-- Settles O22: the slot the return pops is the one the call pushed, which is in use in between. -/
theorem returnRestoresTheCaller : Obligations.ReturnRestoresTheCaller := by
  intro nnn s hroom
  refine ⟨_, execCall_ok nnn s hroom, fun u hsp hslots => ?_⟩
  have hdepth : u.sp.val = s.sp.val + 1 := congrArg Fin.val hsp
  have htop : u.sp.val - 1 = s.sp.val := by omega
  have hcaller : u.stack[s.sp.val] = s.pc :=
    (hslots ⟨s.sp.val, hroom⟩ (Nat.lt_succ_self _)).trans (Vector.getElem_set_self hroom)
  refine ⟨_, execRet_ok u (by omega), ?_, Fin.ext htop⟩
  simpa only [htop] using hcaller

end Sys2Proof.Machine
end

section
/-! PROOFS. The skips (42_skips.md R110 to R114): what a skip does in the execute stage, and over a whole `Step`. -/

namespace Sys2Proof.Machine

section
variable {s : State}

/-! ### A skip in the execute stage (R110 to R113, R160, R161) -/

theorem onlyPc_skipIf (s : State) (c : Bool) : OnlyPc s (s.skipIf c) :=
  onlyPc_jumpTo s (if c then s.pc + 2 else s.pc)

/-- All six skips do the same with their condition. -/
theorem exec_skip {i : Instr} {cond : Bool} (h : skipCondition s.ports s i = some cond) :
    exec i s = .next (s.skipIf cond) := by
  cases i with
  | seImm | sneImm | seReg | sneReg | skp | sknp =>
    obtain rfl := Option.some.inj h
    rfl
  | _ => cases h

/-- A skip's condition reads the registers and the inputs alone. -/
theorem skipCondition_congr {t : State} (p : Ports) (h : ∀ x, t.getV x = s.getV x) (i : Instr) :
    skipCondition p t i = skipCondition p s i := by
  cases i with
  | seImm | sneImm | seReg | sneReg | skp | sknp => simp only [skipCondition, h]
  | _ => rfl

/-! ### `pc` after the fetch advance and a skip (R82, R114) -/

/-- After a fetch neither advance wraps. -/
theorem toNat_pc_skipIf_advancePc {w : Word} (h : Fetches s w) (cond : Bool) :
    (s.advancePc.skipIf cond).pc.toNat = s.pc.toNat + (if cond then 4 else 2) := by
  obtain ⟨hpc, _⟩ := h
  rw [skipIf_pc, advancePc_pc]
  cases cond with
  | true => rw [if_pos rfl, if_pos rfl]; bv_omega
  | false => rw [if_neg nofun, if_neg nofun]; bv_omega

end

/-- Settles O23: each of the four is a `skipIf` of its condition. -/
theorem registerSkipsAdvancePcOnTheirCondition : Obligations.RegisterSkipsAdvancePcOnTheirCondition := by
  intro x y kk s
  refine ⟨⟨_, exec_skip rfl, onlyPc_skipIf s _, ?_⟩, ⟨_, exec_skip rfl, onlyPc_skipIf s _, ?_⟩,
    ⟨_, exec_skip rfl, onlyPc_skipIf s _, ?_⟩, ⟨_, exec_skip rfl, onlyPc_skipIf s _, ?_⟩⟩ <;>
    simp only [skipIf_pc, beq_iff_eq, bne_iff_ne]

/-- Settles O25: beginning the Step and the fetch advance leave the registers, so the condition is still the one
read before the Step. -/
theorem skipLeavesPcFourOrTwoFurther : Obligations.SkipLeavesPcFourOrTwoFurther := by
  intro s s' p w i cond h hrun hw hd hcond
  have hstep := step_running h hrun
  obtain ⟨hdata, htimers, hquiet, _⟩ := beginStep_frame h
  obtain ⟨_, _, rfl⟩ := nextIsStep_cases h
  have hcycle := hstep.trans (cycle_instr hw hd)
  exact ⟨_, hcycle.trans (exec_skip (Eq.trans (skipCondition_congr p (fun _ => rfl) i) hcond)),
    toNat_pc_skipIf_advancePc hw cond, ⟨rfl, rfl⟩, hdata, htimers, hquiet⟩

end Sys2Proof.Machine
end

section
/-! PROOFS. Register load, ALU and random (43_load_alu.md R120 to R131): every one of these instructions is a `setV` of
its value or a `setResultThenFlag` of its result and flag, and both write no other state. -/

namespace Sys2Proof.Machine

/-! ### What the two register writes leave unchanged -/

/-- A new register file touches nothing beyond the registers it changes. -/
theorem onlyRegs_update (s : State) (written : List Reg) (v : Vector Byte 16)
    (h : SameRegsBut written s { s with v := v }) : OnlyRegs written s { s with v := v } :=
  ⟨h, rfl, rfl, ⟨rfl, rfl⟩, ⟨rfl, rfl⟩, rfl, ⟨rfl, rfl⟩, ⟨rfl, rfl⟩, ⟨rfl, rfl, rfl, rfl⟩, fun _ => rfl⟩

theorem onlyRegs_setV (s : State) (x : Reg) (b : Byte) : OnlyRegs [x] s (s.setV x b) := by
  refine onlyRegs_update s [x] _ fun r hr => ?_
  have hx : ¬x = r := fun e => hr (e ▸ List.mem_singleton_self r)
  exact (getV_setV s x r b).trans (if_neg hx)

theorem onlyRegs_setResultThenFlag (s : State) (x : Reg) (b : Byte) (f : Bool) :
    OnlyRegs [x, 15] s (s.setResultThenFlag x b f) := by
  refine onlyRegs_update s [x, 15] _ fun r hr => ?_
  have hx : ¬x = r := fun e => hr (by simp [e])
  have h15 : ¬15 = r := fun e => hr (by simp [e])
  exact (getV_setResultThenFlag s x r b f).trans ((if_neg h15).trans (if_neg hx))

/-! ### The value written (R132): an exact number, narrowed modulo 256 -/

theorem getV_setV_self (s : State) (x : Reg) (b : Byte) : (s.setV x b).getV x = b :=
  (getV_setV s x x b).trans (if_pos rfl)

theorem toNat_getV_result (s : State) {x : Reg} (hx : x ≠ 15) (n : Nat) (f : Bool) :
    ((s.setResultThenFlag x (BitVec.ofNat 8 n) f).getV x).toNat = n % 256 := by
  rw [getV_setResultThenFlag, if_neg hx.symm, if_pos rfl, BitVec.toNat_ofNat]

/-! ### The flag written (R136) -/

/-- `VF` holds the flag whatever `x` is (R86). -/
theorem getV_flag (s : State) (x : Reg) (b : Byte) (f : Bool) : (s.setResultThenFlag x b f).getV 15 = flagByte f :=
  (getV_setResultThenFlag s x 15 b f).trans (if_pos rfl)

theorem flagByte_decide (p : Prop) [Decidable p] : flagByte (decide p) = if p then 1 else 0 := by
  simp only [flagByte, decide_eq_true_eq]

theorem toNat_flagByte (f : Bool) : (flagByte f).toNat = f.toNat := by
  cases f <;> rfl

theorem toNat_shiftedOutLow (a : Byte) : (shiftedOutLow a).toNat = a.toNat % 2 := by
  rw [shiftedOutLow, BitVec.getLsbD, Nat.toNat_testBit, pow_zero, Nat.div_one]

theorem toNat_shiftedOutHigh (a : Byte) : (shiftedOutHigh a).toNat = a.toNat / 128 := by
  have := a.isLt
  rw [shiftedOutHigh, BitVec.getLsbD, Nat.toNat_testBit]
  omega

/-! ### The instructions -/

/-- What an addition or subtraction leaves: its exact result `n` modulo 256, lost when `x` is 15, and the truth of its
condition `p` in `VF` (R126, R127, R129). -/
theorem setResultThenFlag_spec (s : State) (x : Reg) (n : Nat) (p : Prop) [Decidable p] :
    (x ≠ 15 → ((s.setResultThenFlag x (BitVec.ofNat 8 n) (decide p)).getV x).toNat = n % 256) ∧
    (s.setResultThenFlag x (BitVec.ofNat 8 n) (decide p)).getV 15 = (if p then 1 else 0) ∧
    OnlyRegs [x, 15] s (s.setResultThenFlag x (BitVec.ofNat 8 n) (decide p)) :=
  ⟨fun hx => toNat_getV_result s hx n _, (getV_flag s x _ _).trans (flagByte_decide p),
    onlyRegs_setResultThenFlag s x _ _⟩

/-- Settles O26: each of the five is a `setV` of its value. -/
theorem loadsAndLogicWriteOnlyVx : Obligations.LoadsAndLogicWriteOnlyVx := by
  intro x y kk s
  have hbit {b : Byte} {k : Nat} {c : Bool} (h : b.getLsbD k = c) : ((s.setV x b).getV x).getLsbD k = c := by
    rwa [getV_setV_self]
  exact ⟨⟨_, rfl, getV_setV_self s x _, onlyRegs_setV s x _⟩,
    ⟨_, rfl, getV_setV_self s x _, onlyRegs_setV s x _⟩,
    ⟨_, rfl, onlyRegs_setV s x _, fun _ _ => hbit BitVec.getLsbD_or⟩,
    ⟨_, rfl, onlyRegs_setV s x _, fun _ _ => hbit BitVec.getLsbD_and⟩,
    ⟨_, rfl, onlyRegs_setV s x _, fun _ _ => hbit BitVec.getLsbD_xor⟩⟩

/-- Settles O27: `setV` writes no flag. -/
theorem addImmediateWrapsWithoutFlag : Obligations.AddImmediateWrapsWithoutFlag := by
  intro x kk s
  refine ⟨_, rfl, ?_, onlyRegs_setV s x _⟩
  rw [getV_setV_self, BitVec.toNat_ofNat]

/-- Settles O28. -/
theorem addSetsCarry : Obligations.AddSetsCarry := fun x _ s =>
  ⟨_, rfl, setResultThenFlag_spec s x _ _⟩

/-- Settles O29: the flag compares the operands before the write, so it does not depend on whether `x` is 15. -/
theorem subtractionsSetStrictlyGreater : Obligations.SubtractionsSetStrictlyGreater := fun x _ s =>
  ⟨⟨_, rfl, setResultThenFlag_spec s x _ _⟩, ⟨_, rfl, setResultThenFlag_spec s x _ _⟩⟩

/-- What a right shift does to the value it shifts, under either `SHIFT_SOURCE` (R128). -/
theorem shiftRightFrom_spec (src : Config.ShiftSource) (x y : Reg) (s : State) :
    (x ≠ 15 → ((shiftRightFrom src x y s).getV x).toNat = (s.shiftOperand src x y).toNat / 2) ∧
    ((shiftRightFrom src x y s).getV 15).toNat = (s.shiftOperand src x y).toNat % 2 ∧
    OnlyRegs [x, 15] s (shiftRightFrom src x y s) := by
  refine ⟨fun hx => ?_, ?_, onlyRegs_setResultThenFlag s x _ _⟩
  · have hhalf : (s.shiftOperand src x y).toNat / 2 < 256 := by
      have := (s.shiftOperand src x y).isLt
      omega
    exact (toNat_getV_result s hx _ _).trans (Nat.mod_eq_of_lt hhalf)
  · rw [shiftRightFrom, getV_flag, toNat_flagByte, toNat_shiftedOutLow]

/-- What a left shift does to the value it shifts, under either `SHIFT_SOURCE` (R130). -/
theorem shiftLeftFrom_spec (src : Config.ShiftSource) (x y : Reg) (s : State) :
    (x ≠ 15 → ((shiftLeftFrom src x y s).getV x).toNat = 2 * (s.shiftOperand src x y).toNat % 256) ∧
    ((shiftLeftFrom src x y s).getV 15).toNat = (s.shiftOperand src x y).toNat / 128 ∧
    OnlyRegs [x, 15] s (shiftLeftFrom src x y s) := by
  refine ⟨fun hx => toNat_getV_result s hx _ _, ?_, onlyRegs_setResultThenFlag s x _ _⟩
  rw [shiftLeftFrom, getV_flag, toNat_flagByte, toNat_shiftedOutHigh]

/-- Settles O30: `SHIFT_SOURCE` is `Vx` by default, so the operand is `Vx` itself. -/
theorem shiftsPutTheBitShiftedOutInVF : Obligations.ShiftsPutTheBitShiftedOutInVF := fun x y s =>
  ⟨⟨_, rfl, shiftRightFrom_spec .vx x y s⟩, ⟨_, rfl, shiftLeftFrom_spec .vx x y s⟩⟩

/-- Settles O31: the two shifts' laws, at the operand that each value of the parameter selects. -/
theorem shiftsUnderEitherShiftSource : Obligations.ShiftsUnderEitherShiftSource := by
  intro src x y s
  obtain ⟨hhalf, hlow, hright⟩ := shiftRightFrom_spec src x y s
  obtain ⟨hdouble, hhigh, hleft⟩ := shiftLeftFrom_spec src x y s
  cases src with
  | vx | vy => exact ⟨hhalf, hlow, hright, hdouble, hhigh, hleft⟩

/-- Settles O32: the random byte is whatever the port holds. -/
theorem randomIsMaskedInput : Obligations.RandomIsMaskedInput := by
  intro x kk b s
  refine ⟨_, rfl, fun k _ => ?_, onlyRegs_setV _ x _⟩
  rw [getV_setV_self, BitVec.getLsbD_and]

end Sys2Proof.Machine
end

section
/-! PROOFS. Index register and memory (44_index_memory.md R140 to R146): the three instructions that write `I` alone,
and the digit store, the block store and the block load where their bytes lie in memory. -/

namespace Sys2Proof.Machine

/-! ### `I` as a number (R140 to R142) -/

/-- Registers and `I` are no part of the frame that the `I` writes and the block load share. -/
theorem sameBeyondRegs_update (s : State) (v : Vector Byte 16) (i : Word) :
    SameBeyondRegs s { s with v := v, i := i } :=
  ⟨⟨rfl, rfl⟩, ⟨rfl, rfl⟩, rfl, ⟨rfl, rfl⟩, ⟨rfl, rfl⟩, ⟨rfl, rfl, rfl, rfl⟩, fun _ => rfl⟩

theorem onlyIndex_update (s : State) (i : Word) : OnlyIndex s { s with i := i } :=
  ⟨fun _ _ => rfl, rfl, sameBeyondRegs_update s s.v i⟩

/-- The highest glyph address is 0x050 + 5 * 255, so `I` holds it without reduction (R142, D9). -/
theorem toNat_glyphAddr_default (vx : Byte) : (glyphAddr vx).toNat = 0x050 + 5 * vx.toNat := by
  have hfits : 0x050 + 5 * vx.toNat < 65536 := by
    have := vx.isLt
    omega
  exact (glyphAddr_toNat vx _).trans (Nat.mod_eq_of_lt hfits)

/-- After a block inside memory `I` is at most 4096, so it does not wrap (R144, R145, D6). -/
theorem toNat_blockEnd_advance {i : Word} {x : Reg} (hspan : i.toNat + x.val < 4096) :
    (blockEnd .advance i x).toNat = i.toNat + x.val + 1 := by
  rw [blockEnd, BitVec.toNat_ofNat]
  omega

/-- Settles O33. -/
theorem indexIsLoadedOrAddedTo : Obligations.IndexIsLoadedOrAddedTo := fun nnn _ s =>
  ⟨⟨_, rfl, toNat_zext16 nnn, onlyIndex_update s _⟩, ⟨_, rfl, BitVec.toNat_ofNat _ _, onlyIndex_update s _⟩⟩

/-- Settles O34. -/
theorem glyphAddressIsFontBasePlusFiveVx : Obligations.GlyphAddressIsFontBasePlusFiveVx := fun x s =>
  ⟨_, rfl, toNat_glyphAddr_default (s.getV x), onlyIndex_pointAtGlyph s x _⟩

/-! ### The stores (R143, R144) -/

/-- A digit stored as a byte is not narrowed. -/
theorem toNat_digitByte {d n : Nat} (h : d = n % 10) : (BitVec.ofNat 8 d).toNat = n % 10 := by
  rw [BitVec.toNat_ofNat]
  omega

/-- Digit `k` of a byte's digits, the most significant first, is the one at the power of ten with as many digits
below it (R143); which digits are stored depends on the value's range (D10). -/
theorem toNat_decimalDigits_getElem (v : Byte) (k : Nat) (hk : k < (decimalDigits v).length) :
    (decimalDigits v)[k].toNat = v.toNat / 10 ^ ((decimalDigits v).length - 1 - k) % 10 := by
  have hv := v.isLt
  by_cases h100 : v.toNat ≥ 100
  · have hdigits : decimalDigits v = [BitVec.ofNat 8 _, BitVec.ofNat 8 _, BitVec.ofNat 8 _] := if_pos h100
    simp only [hdigits, List.length_cons, List.length_nil] at hk ⊢
    match k, hk with
    | 0, _ | 1, _ | 2, _ => exact toNat_digitByte (by omega)
  by_cases h10 : v.toNat ≥ 10
  · have hdigits : decimalDigits v = [BitVec.ofNat 8 _, BitVec.ofNat 8 _] := (if_neg h100).trans (if_pos h10)
    simp only [hdigits, List.length_cons, List.length_nil] at hk ⊢
    match k, hk with
    | 0, _ | 1, _ => exact toNat_digitByte (by omega)
  · have hdigits : decimalDigits v = [v] := (if_neg h100).trans (if_neg h10)
    simp only [hdigits, List.length_singleton] at hk ⊢
    match k, hk with
    | 0, _ =>
      change v.toNat = _
      omega

/-- Everything but the registers, `pc`, `I` and memory is unchanged: what the frames of the two stores share. -/
def SameBeyondRegsAndMemory (s t : State) : Prop :=
  SameStack s t ∧ SameTimers s t ∧ SamePixels s t ∧ SameRun s t ∧ SameStrobes s t ∧ SameHost s t

theorem sameBeyondRegsAndMemory_update (s : State) (mem : Memory) (i : Word) :
    SameBeyondRegsAndMemory s { s with mem := mem, i := i } :=
  ⟨⟨rfl, rfl⟩, ⟨rfl, rfl⟩, rfl, ⟨rfl, rfl⟩, ⟨rfl, rfl⟩, ⟨rfl, rfl, rfl, rfl⟩⟩

/-- Settles O35: `m` is the length of the list of digits, which is stored at `I`. -/
theorem decimalDigitsAreStoredWithoutLeadingZeros : Obligations.DecimalDigitsAreStoredWithoutLeadingZeros := by
  intro x s m hwf hm hspan
  obtain rfl : m = (decimalDigits (s.getV x)).length := hm.trans (decimalDigits_length _).symm
  refine ⟨_, execLdB_ok x s hspan, fun k hk => ?_, fun c hc => ?_, fun _ _ => rfl, rfl, rfl,
    sameBeyondRegsAndMemory_update s _ s.i⟩
  · exact (congrArg BitVec.toNat (read_writeList_inside _ s.i.toNat k hk hspan hwf)).trans
      (toNat_decimalDigits_getElem _ k hk)
  · exact read_writeList_outside _ s.mem s.i.toNat hc

/-- Settles O36: the block of registers is stored at `I`, and `BLOCK_XFER_I_STEP` is to advance by default. -/
theorem blockStoreWritesV0ToVx : Obligations.BlockStoreWritesV0ToVx := by
  intro x s hwf hspan
  refine ⟨_, execLdMemVx_ok x s hspan, fun k hk => ?_, fun c hc => ?_, toNat_blockEnd_advance hspan,
    fun _ _ => rfl, rfl, sameBeyondRegsAndMemory_update s _ _⟩
  · exact read_writeList_blockRegs hwf hspan hk
  · rw [← blockRegs_length s x] at hc
    exact read_writeList_outside _ s.mem s.i.toNat hc

/-! ### The load (R145) -/

/-- `I` is no part of the register file. -/
theorem getV_update_i (s : State) (i : Word) (k : Reg) : ({ s with i := i } : State).getV k = s.getV k :=
  getV_congr rfl k

/-- Settles O37: `setVUpTo` takes the bytes read at `I` for `V0` to `Vx` and keeps the registers above. -/
theorem blockLoadReadsV0ToVx : Obligations.BlockLoadReadsV0ToVx := by
  intro x s hspan
  refine ⟨_, execLdVxMem_ok x s hspan, fun k hk => ?_, fun k hk => ?_, toNat_blockEnd_advance hspan, rfl,
    sameBeyondRegs_update s _ _⟩
  · rw [getV_update_i, getV_setVUpTo, if_pos hk]
    exact readList_getD s.mem s.i.toNat (x.val + 1) k.val 0 (Nat.lt_succ_of_le hk)
  · rw [getV_update_i, getV_setVUpTo, if_neg (not_le.2 hk)]

end Sys2Proof.Machine
end

section
/-! PROOFS. Display (45_display.md R150 to R152): the clear, one draw, and the same sprite drawn twice. -/

namespace Sys2Proof.Machine

section
variable {x y : Reg} {n : Nibble} {s : State} {px : Fin 64} {py : Fin 32}

/-! ### The pixels a sprite covers (R151, R152) -/

/-- A sprite has at most 15 rows, so no two of them share a screen row (R151c). -/
theorem readList_sprite_le (m : Memory) (a : Nat) (n : Nibble) : (m.readList a n.toNat).length ≤ 32 := by
  have := n.isLt
  rw [readList_length]
  omega

theorem getElem_readList (m : Memory) (a n k : Nat) (h : k < (m.readList a n).length) :
    (m.readList a n)[k] = m.read (a + k) := by
  simp [Memory.readList]

/-- The loops of R151 visit exactly the pixels the sprite covers. -/
theorem spriteCovers_iff : SpriteCovers s x y n px py ↔
    (px, py) ∈ litPixels (s.getV x).toNat (s.getV y).toNat (s.mem.readList s.i.toNat n.toNat) := by
  rw [SpriteCovers, mem_litPixels]
  refine exists₂_congr fun r c => ?_
  simp only [readList_length, getElem_readList, exists_prop, State.effAddr, Prod.mk.injEq, Fin.ext_iff,
    Fin.val_ofNat]

/-- Which pixels are covered depends on the coordinates, `I` and memory alone. -/
theorem spriteCovers_congr {x' y' : Reg} {t : State} (hx : t.getV x' = s.getV x) (hy : t.getV y' = s.getV y)
    (hi : t.i = s.i) (hmem : t.mem = s.mem) : SpriteCovers t x' y' n px py ↔ SpriteCovers s x y n px py := by
  rw [spriteCovers_iff, spriteCovers_iff, hx, hy, hi, hmem]

/-! ### What one draw does (R151) -/

theorem pixel_drawn : (drawn x y n s).fb.pixel px py =
    xor (s.fb.pixel px py) (decide ((px, py) ∈
      litPixels (s.getV x).toNat (s.getV y).toNat (s.mem.readList s.i.toNat n.toNat))) :=
  pixel_drawSprite s.fb _ _ _ (readList_sprite_le _ _ n) px py

theorem pixel_drawn_covered (h : SpriteCovers s x y n px py) :
    (drawn x y n s).fb.pixel px py = !s.fb.pixel px py := by
  rw [pixel_drawn, decide_eq_true (spriteCovers_iff.1 h), Bool.xor_true]

theorem pixel_drawn_uncovered (h : ¬SpriteCovers s x y n px py) :
    (drawn x y n s).fb.pixel px py = s.fb.pixel px py := by
  rw [pixel_drawn, decide_eq_false (mt spriteCovers_iff.2 h), Bool.xor_false]

/-- `Dxyn` collides: its sprite covers a pixel that is set (R151). -/
def SpriteCollides (s : State) (x y : Reg) (n : Nibble) : Prop :=
  ∃ px py, SpriteCovers s x y n px py ∧ s.fb.pixel px py = true

/-- The collision flag of the loops says whether the sprite collides. -/
theorem drawSprite_collides_iff : (drawSprite s.fb (s.getV x).toNat (s.getV y).toNat
    (s.mem.readList s.i.toNat n.toNat)).2 = true ↔ SpriteCollides s x y n := by
  rw [collision_drawSprite _ _ _ _ (readList_sprite_le _ _ n), List.any_eq_true, Prod.exists]
  simp only [SpriteCollides, spriteCovers_iff]

theorem getV_drawn_of_collides (h : SpriteCollides s x y n) : (drawn x y n s).getV 15 = 1 := by
  rw [getV_drawn, if_pos rfl, drawSprite_collides_iff.2 h]
  rfl

theorem getV_drawn_of_not_collides (h : ¬SpriteCollides s x y n) : (drawn x y n s).getV 15 = 0 := by
  rw [getV_drawn, if_pos rfl, Bool.eq_false_iff.2 (mt drawSprite_collides_iff.1 h)]
  rfl

theorem sameRegsBut_drawn (x y : Reg) (n : Nibble) (s : State) : SameRegsBut [15] s (drawn x y n s) := by
  intro r hr
  have hne : (15 : Reg) ≠ r := fun h => hr (List.mem_singleton.2 h.symm)
  rw [getV_drawn, if_neg hne]

/-! ### The same sprite drawn twice (R151 corner case f) -/

section
variable {x' y' : Reg} (hx : (drawn x y n s).getV x' = s.getV x) (hy : (drawn x y n s).getV y' = s.getV y)
include hx hy

/-- The second sprite covers the pixels the first one did: the draw in between changes neither `I` nor memory. -/
theorem spriteCovers_drawn : SpriteCovers (drawn x y n s) x' y' n px py ↔ SpriteCovers s x y n px py :=
  spriteCovers_congr hx hy rfl rfl

/-- A covered pixel is flipped twice, any other never. -/
theorem pixel_drawn_drawn : (drawn x' y' n (drawn x y n s)).fb.pixel px py = s.fb.pixel px py := by
  by_cases h : SpriteCovers s x y n px py
  · have h' := (spriteCovers_drawn hx hy).2 h
    rw [pixel_drawn_covered h', pixel_drawn_covered h, Bool.not_not]
  · have h' := mt (spriteCovers_drawn hx hy).1 h
    rw [pixel_drawn_uncovered h', pixel_drawn_uncovered h]

/-- The second sprite finds set what the first one set: the covered pixels that were off. -/
theorem spriteCollides_drawn : SpriteCollides (drawn x y n s) x' y' n ↔
    ∃ px py, SpriteCovers s x y n px py ∧ s.fb.pixel px py = false := by
  refine exists₂_congr fun px py => ?_
  rw [spriteCovers_drawn hx hy]
  refine and_congr_right fun h => ?_
  rw [pixel_drawn_covered h, Bool.not_eq_true']

end

end

/-- Settles O40: the clear replaces `fb` and no other field. -/
theorem clearEmptiesTheFramebuffer : Obligations.ClearEmptiesTheFramebuffer := fun _ =>
  ⟨_, rfl, pixel_clear, fun _ _ => rfl, rfl, rfl, ⟨rfl, rfl⟩, ⟨rfl, rfl⟩, ⟨rfl, rfl⟩, ⟨rfl, rfl⟩,
    ⟨rfl, rfl, rfl, rfl⟩, fun _ => rfl⟩

/-- Settles O41: the loops visit each covered pixel once, flip it and note whether it was set. -/
theorem drawFlipsTheSpritesPixels : Obligations.DrawFlipsTheSpritesPixels := fun x y n s hspan =>
  ⟨_, execDrw_ok x y n s hspan, fun _ _ => pixel_drawn_covered, fun _ _ => pixel_drawn_uncovered,
    getV_drawn_of_collides, getV_drawn_of_not_collides, rfl, rfl, sameRegsBut_drawn x y n s, rfl, rfl,
    ⟨rfl, rfl⟩, ⟨rfl, rfl⟩, ⟨rfl, rfl⟩, ⟨rfl, rfl, rfl, rfl⟩, fun _ => rfl⟩

/-- Settles O42: both draws are `drawn`, and the second covers what the first did. -/
theorem drawingTwiceRestoresTheFramebuffer : Obligations.DrawingTwiceRestoresTheFramebuffer := by
  intro x y x' y' n s t hspan hdraw hx hy
  obtain rfl := Host.Outcome.next.inj ((execDrw_ok x y n s hspan).symm.trans hdraw)
  exact ⟨_, execDrw_ok x' y' n _ hspan, fun _ _ => pixel_drawn_drawn hx hy,
    fun h => getV_drawn_of_collides ((spriteCollides_drawn hx hy).2 h),
    fun h => getV_drawn_of_not_collides (mt (spriteCollides_drawn hx hy).1 h)⟩

end Sys2Proof.Machine
end

section
/-! PROOFS. Keypad and timers (46_keypad_timers.md R160 to R166): the key press, the two skips on keys, the key wait,
and the instructions on the timers. -/

namespace Sys2Proof.Machine

/-! ### The key press (R163) -/

theorem toNat_zext8 (k : Nibble) : (zext8 k).toNat = k.toNat :=
  BitVec.toNat_setWidth_of_le (by decide)

/-- A `KeyPress` outside a wait only begins the event (R163, D22). -/
theorem step_keyPress_other {s : State} {k : Nibble} {rest : List HostEvent}
    (hrun : s.runState = .running ∨ s.runState = .faulted) (h : s.inbox = .keyPress k :: rest) :
    step s = .next ({ s with inbox := rest }).beginEvent :=
  (step_of_inbox h).trans (congrArg _ (keyPress_other (s := ({ s with inbox := rest }).beginEvent) k hrun))

/-- Settles O11: in a wait the step is a `setV` of the key and a return to `Running`; elsewhere it writes the strobes,
the freshness flag and the inbox alone. -/
theorem keyPressEndsOnlyAWait : Obligations.KeyPressEndsOnlyAWait := by
  intro s k rest hinbox
  refine ⟨fun r hwait => ?_, fun hrun => ?_⟩
  · have hkey : ((s.setV r (zext8 k)).getV r).toNat = k.toNat := by rw [getV_setV_self, toNat_zext8]
    obtain ⟨hregs, -⟩ := onlyRegs_setV s r (zext8 k)
    exact ⟨_, step_keyPress_awaiting hwait hinbox, rfl, rfl, hkey, hregs, rfl, rfl, ⟨rfl, rfl⟩, ⟨rfl, rfl⟩, rfl,
      fun _ => rfl, ⟨rfl, rfl⟩, rfl⟩
  · exact ⟨_, step_keyPress_other hrun hinbox, ⟨rfl, rfl⟩, rfl,
      ⟨fun _ _ => rfl, rfl, ⟨rfl, rfl⟩, rfl, fun _ => rfl⟩, ⟨rfl, rfl⟩, ⟨rfl, rfl⟩, rfl⟩

/-! ### The level of a key (R160, R161, D11) -/

theorem keyDown_of_le (s : State) {v : Byte} (oor : Bool) (h : v.toNat ≤ 15) :
    s.keyDown v oor = s.ports.keys.getLsbD v.toNat :=
  if_pos h

theorem keyDown_of_gt (s : State) {v : Byte} (oor : Bool) (h : 15 < v.toNat) : s.keyDown v oor = oor :=
  if_neg (Nat.not_le.2 h)

/-- Settles O24: the two are `skipIf` of `keyDown` and of its negation. -/
theorem keySkipsFollowTheKeyLevel : Obligations.KeySkipsFollowTheKeyLevel := by
  intro x s
  refine ⟨⟨_, rfl, onlyPc_skipIf s _, fun hkey => ?_, fun hoor => ?_⟩,
    ⟨_, rfl, onlyPc_skipIf s _, fun hkey => ?_, fun hoor => ?_⟩⟩
  · rw [skipIf_pc, keyDown_of_le s _ hkey]
  · rw [skipIf_pc, keyDown_of_gt s _ hoor]
  · simp only [skipIf_pc, keyDown_of_le s _ hkey, Bool.not_eq_true']
  · simp only [skipIf_pc, keyDown_of_gt s _ hoor, Bool.not_eq_true']

/-! ### The key wait and the timers (R162, R164 to R166) -/

/-- Settles O43: `Fx0A` writes the run state and its strobe, and no other field. -/
theorem keyWaitIsEntered : Obligations.KeyWaitIsEntered := fun _ _ =>
  ⟨_, rfl, rfl, rfl, rfl, rfl, rfl, ⟨fun _ _ => rfl, rfl, ⟨rfl, rfl⟩, rfl, fun _ => rfl⟩, ⟨rfl, rfl⟩,
    ⟨rfl, rfl, rfl, rfl⟩⟩

/-- Nothing beyond the two timers is written, as O44 says it of `Fx15` and `Fx18`. -/
def OnlyTimers (s t : State) : Prop :=
  SameData s t ∧ t.pc = s.pc ∧ SameRun s t ∧ SameStrobes s t ∧ SameHost s t

theorem onlyTimers_update (s : State) (dt st : Byte) : OnlyTimers s { s with dt := dt, st := st } :=
  ⟨⟨fun _ _ => rfl, rfl, ⟨rfl, rfl⟩, rfl, fun _ => rfl⟩, rfl, ⟨rfl, rfl⟩, ⟨rfl, rfl⟩, ⟨rfl, rfl, rfl, rfl⟩⟩

/-- Settles O44: `Fx07` is a `setV`, and `Fx15` and `Fx18` each write one timer. -/
theorem timersAreReadAndWritten : Obligations.TimersAreReadAndWritten := fun x s =>
  ⟨⟨_, rfl, getV_setV_self s x s.dt, onlyRegs_setV s x s.dt⟩,
    ⟨_, rfl, rfl, rfl, onlyTimers_update s (s.getV x) s.st⟩,
    ⟨_, rfl, rfl, rfl, onlyTimers_update s s.dt (s.getV x)⟩⟩

end Sys2Proof.Machine
end

section
/-! PROOFS. Exceptions and the events outside `Running` (60_exceptions.md R179, R186, R192): the timer tick, one and
many, and what can happen to a machine that waits or has faulted. -/

namespace Sys2Proof.Machine

/-- It also serves between two states that differ only in fields the data does not include. -/
theorem sameData_refl (s : State) : SameData s s :=
  ⟨fun _ _ => rfl, rfl, ⟨rfl, rfl⟩, rfl, fun _ => rfl⟩

/-! ### The timer tick (R186) -/

/-- The strict guard of R186 is subtraction cut off at zero. -/
theorem toNat_tickDown (b : Byte) : (tickDown b).toNat = b.toNat - 1 := by
  rw [tickDown]
  split
  · next hpos => exact BitVec.toNat_sub_of_le hpos
  · omega

theorem step_timerTick {s : State} {rest : List HostEvent} (h : s.inbox = .timerTick :: rest) :
    step s = .next ({ s with inbox := rest }).beginEvent.timerTick :=
  step_of_inbox h

/-- Settles O9: the event writes the timers, the strobes, the freshness flag and the inbox alone. -/
theorem timerTickDecrementsBothTimers : Obligations.TimerTickDecrementsBothTimers := by
  intro s rest h
  have hguard (b : Byte) : (tickDown b).toNat = if b.toNat > 0 then b.toNat - 1 else 0 := by
    rw [toNat_tickDown]
    split <;> omega
  exact ⟨_, step_timerTick h, hguard s.dt, hguard s.st, ⟨rfl, rfl⟩, rfl, sameData_refl s,
    ⟨rfl, rfl⟩, rfl⟩

/-- Settles O10, by induction on the ticks: the first takes one from each timer, the others `n` more. -/
theorem repeatedTicksCountDownToZero : Obligations.RepeatedTicksCountDownToZero := by
  intro n s rest h
  induction n generalizing s with
  | zero =>
    exact ⟨s, rfl, rfl, rfl, ⟨rfl, rfl⟩, rfl, sameData_refl s, h⟩
  | succ n ih =>
    obtain ⟨t, hrun, hdt, hst, hkept⟩ :=
      ih ({ s with inbox := List.replicate n HostEvent.timerTick ++ rest }).beginEvent.timerTick rfl
    have hcount (b : Byte) : (tickDown b).toNat - n = b.toNat - (n + 1) := by
      rw [toNat_tickDown]
      omega
    exact ⟨t, (run_succ_of_step (step_timerTick h) n).trans hrun, hdt.trans (hcount s.dt), hst.trans (hcount s.st),
      hkept⟩

/-! ### Events while the machine waits or has faulted (R179, R192) -/

/-- Run state, record, `pc` and data are unchanged: what every event that has no effect in a run state leaves. -/
def StandsStill (s t : State) : Prop := SameRun s t ∧ t.pc = s.pc ∧ SameData s t

section
variable {s t : State}

/-- Taking the next event and beginning it leaves the machine where it was, timers included (R7, R31). -/
theorem standsStill_beginEvent (s : State) :
    StandsStill s s.takeEvent.2.beginEvent ∧ SameTimers s s.takeEvent.2.beginEvent := by
  obtain ⟨_, _, _, hu⟩ := takeEvent_cases s
  rw [hu]
  exact ⟨⟨⟨rfl, rfl⟩, rfl, sameData_refl s⟩, rfl, rfl⟩

/-- A tick writes the timers alone. -/
theorem StandsStill.timerTick (h : StandsStill s t) : StandsStill s t.timerTick := h

/-- What a step can do outside `Running`, once an event has been handled since `Reset`: it resets, handles a key press,
or stands still, and then only a tick has touched the timers. -/
theorem step_cases_of_not_running (hrun : s.runState ≠ .running) (hfresh : s.fresh = false) (h : step s = .next t) :
    (s.takeEvent.1 = .reset ∧ t = s.takeEvent.2.resetEvent) ∨
    (∃ k, s.takeEvent.1 = .keyPress k ∧ t = s.takeEvent.2.beginEvent.keyPress k) ∨
    (StandsStill s t ∧ (s.takeEvent.1 = .timerTick ∨ SameTimers s t)) := by
  have handled : handleEvent s.takeEvent.1 s.takeEvent.2 = .next t := h
  obtain ⟨hstill, htimers⟩ := standsStill_beginEvent s
  cases he : s.takeEvent.1 with
  | reset =>
    rw [he] at handled
    exact .inl ⟨rfl, (Host.Outcome.next.inj handled).symm⟩
  | load bytes =>
    rw [he] at handled
    obtain ⟨hnew, -⟩ := loadEvent_cases handled
    cases hfresh.symm.trans ((takeEvent_fresh s).symm.trans hnew)
  | step p =>
    rw [he] at handled
    have hidle := stepEvent_other p ((takeEvent_runState s).trans_ne hrun)
    obtain rfl := Host.Outcome.next.inj (hidle.symm.trans handled)
    exact .inr (.inr ⟨hstill, .inr htimers⟩)
  | timerTick =>
    rw [he] at handled
    obtain rfl := Host.Outcome.next.inj handled
    exact .inr (.inr ⟨hstill.timerTick, .inl rfl⟩)
  | keyPress k =>
    rw [he] at handled
    exact .inr (.inl ⟨k, rfl, (Host.Outcome.next.inj handled).symm⟩)

end

/-- Settles O13: in a wait the key press writes the awaited register and resumes. -/
theorem onlyKeyPressOrResetEndsAWait : Obligations.OnlyKeyPressOrResetEndsAWait := by
  intro s t r hwait hfresh h
  obtain ⟨he, rfl⟩ | ⟨k, he, rfl⟩ | ⟨⟨⟨hrun, hfault⟩, hpc, hdata⟩, htimers⟩ :=
    step_cases_of_not_running (hwait.trans_ne nofun) hfresh h
  · exact .inl ⟨he, rfl⟩
  · obtain ⟨⟨⟨hrun, -⟩, hpc, hregs, -⟩, -⟩ := standsStill_beginEvent s
    obtain ⟨hothers, -⟩ := onlyRegs_setV s.takeEvent.2.beginEvent r (zext8 k)
    have hkey := (congrArg BitVec.toNat (getV_setV_self s.takeEvent.2.beginEvent r (zext8 k))).trans (toNat_zext8 k)
    rw [keyPress_awaiting k (hrun.trans hwait)]
    exact .inr (.inl ⟨k, he, rfl, hkey, fun q hq => (hothers q hq).trans (hregs q List.not_mem_nil), hpc⟩)
  · exact .inr (.inr ⟨hrun.trans hwait, hfault, hpc, hdata, htimers⟩)

/-- Settles O54: in `Faulted` a key press is ignored, so that only `Reset` does not stand still. -/
theorem faultedIsLeftOnlyByReset : Obligations.FaultedIsLeftOnlyByReset := by
  intro s t hfaulted hfresh h
  obtain ⟨he, rfl⟩ | ⟨k, -, rfl⟩ | ⟨⟨hrun, hpc, hdata⟩, htimers⟩ :=
    step_cases_of_not_running (hfaulted.trans_ne nofun) hfresh h
  · exact .inl ⟨he, rfl, rfl⟩
  · obtain ⟨⟨hrun, hpc, hdata⟩, htimers⟩ := standsStill_beginEvent s
    rw [keyPress_other k (.inr (hrun.left.trans hfaulted))]
    exact .inr ⟨hrun, hpc, hdata, .inr htimers⟩
  · exact .inr ⟨hrun, hpc, hdata, htimers⟩

end Sys2Proof.Machine
end

section
/-! PROOFS. The end of a run (70_reset_and_hazards.md R204): a jump to itself. -/

namespace Sys2Proof.Machine

/-- Settles O57: the jump undoes the fetch advance, and `pc` and memory are all that makes a self-jump. -/
theorem selfJumpStandsStill : Obligations.SelfJumpStandsStill := by
  intro s s' p hself h
  have ⟨hrun, nnn, haddr, hw⟩ := hself
  have hstep := step_running h hrun
  obtain ⟨hdata, htimers, -⟩ := beginStep_frame h
  obtain ⟨_, _, rfl⟩ := nextIsStep_cases h
  have htarget : zext16 nnn = s.pc := BitVec.eq_of_toNat_eq ((toNat_zext16 nnn).trans haddr)
  have hjump (u : State) : exec (.jp nnn) u = .next (u.jumpTo s.pc) := htarget ▸ rfl
  have hcycle := hstep.trans (cycle_instr hw (decode_encode _))
  exact ⟨_, hcycle.trans (hjump _), rfl, ⟨rfl, rfl⟩, hdata, htimers, hself⟩

end Sys2Proof.Machine
end
